-- ==== Sys2Proof/Word.lean ====
section
/-! DEFINITION. The word types of the bit-bang bus controller (spec/00_scope.md R8, spec/30_encoding.md R45). -/

namespace Sys2Proof

/-- A command word: one 32-bit value, delivered whole (30 R45). -/
abbrev Word := BitVec 32

/-- A transfer byte, the spec's `u8` (00 R8): bits `v[7]` (most significant) down to `v[0]`. -/
abbrev Byte := BitVec 8

/-- A bit (00 R8): `true` is the bit 1 and the line level high, `false` is 0 and low. -/
abbrev Bit := Bool

end Sys2Proof
end

