-- ==== Sys2Proof/Syntax.lean ====
section
/-! DEFINITION. The twelve commands of BBC-CMD32, one constructor per row of spec/opcode_table.json (spec/30_encoding.md R48). -/

namespace Sys2Proof

/-- A command with its operands (30 R47). A channel index is a natural, since the spec only compares it with `TW_N`;
bytes and the 7-bit address are bits; `outer` and `last` are flags, 1 = true. -/
inductive Instr where
  | twInit (outer : Bit)
  | twStart (ch : Nat) (abyte : Byte)
  | twRestart (ch : Nat) (abyte : Byte)
  | twStop (ch : Nat)
  | twWrite (ch : Nat) (v : Byte)
  | twRead (ch : Nat) (last : Bit)
  | twWritebyte (ch : Nat) (addr7 : BitVec 7) (v : Byte)
  | twReadbyte (ch : Nat) (addr7 : BitVec 7)
  | scBegin
  | scSend (v : Byte)
  | scReceive
  | scTransfer (v : Byte)
  deriving DecidableEq, Repr

/-- The pseudo-instructions of 30 R56. -/
inductive Pseudo where
  | startw (ch : Nat) (addr7 : BitVec 7)
  | startr (ch : Nat) (addr7 : BitVec 7)
  | restartw (ch : Nat) (addr7 : BitVec 7)
  | restartr (ch : Nat) (addr7 : BitVec 7)
  | readack (ch : Nat)
  | readnak (ch : Nat)
  deriving DecidableEq, Repr

end Sys2Proof
end

