-- ==== Sys2Proof/WellFormed.lean ====
section
/-! DEFINITION. Which instructions have an encoding: every operand in the range of its field (spec/30_encoding.md R46, R47, R54). -/

namespace Sys2Proof

/-- The channel index a two-wire command carries, if it carries one. -/
def Instr.channel? : Instr → Option Nat
  | .twInit _ => none
  | .twStart ch _ => some ch
  | .twRestart ch _ => some ch
  | .twStop ch => some ch
  | .twWrite ch _ => some ch
  | .twRead ch _ => some ch
  | .twWritebyte ch _ _ => some ch
  | .twReadbyte ch _ => some ch
  | .scBegin => none
  | .scSend _ => none
  | .scReceive => none
  | .scTransfer _ => none

/-- A channel index is 0 to 255 (30 R47, R54); the widths of the other operands are their types. -/
def Instr.wellFormed (i : Instr) : Bool :=
  match i.channel? with
  | some ch => decide (ch < 256)
  | none => true

/-- The channel index a pseudo-instruction carries. -/
def Pseudo.channel : Pseudo → Nat
  | .startw ch _ => ch
  | .startr ch _ => ch
  | .restartw ch _ => ch
  | .restartr ch _ => ch
  | .readack ch => ch
  | .readnak ch => ch

def Pseudo.wellFormed (p : Pseudo) : Bool := decide (p.channel < 256)

end Sys2Proof
end

