-- ==== Sys2Proof/Decode.lean ====
section
/-! DEFINITION. Decoding a 32-bit command word, and the encoder, from the field layout and the opcode map of
spec/30_encoding.md R45 to R56. Decoding is total and rejects by name. -/

namespace Sys2Proof

/-- Why a word names no operation. Both raise the one fault `IllegalCommand` (60 R90). -/
inductive Illegal where
  /-- `OP` is 0xC to 0xF (30 R50). -/
  | reservedOpcode
  /-- A 1 in a bit that the word's row masks (30 R51). -/
  | mustBeZero
  deriving DecidableEq, Repr

/-! The fields of 30 R46. -/

def opField (w : Word) : BitVec 4 := w.extractLsb' 28 4
def flagField (w : Word) : Bit := w.getLsbD 24
def chField (w : Word) : BitVec 8 := w.extractLsb' 16 8
def addrField (w : Word) : Byte := w.extractLsb' 8 8
def addr7Field (w : Word) : BitVec 7 := w.extractLsb' 8 7
def dataField (w : Word) : Byte := w.extractLsb' 0 8

/-- One row of 30 R49. -/
structure Row where
  matchBits : Word
  mask : Word
  deriving DecidableEq, Repr

/-- Word `w` matches a row if `(w & mask) = match` (30 R48). -/
def Row.matches (r : Row) (w : Word) : Bool := decide (w &&& r.mask = r.matchBits)

def rowTwInit : Row := ⟨0x00000000#32, 0xFEFFFFFF#32⟩
def rowTwStart : Row := ⟨0x10000000#32, 0xFF0000FF#32⟩
def rowTwRestart : Row := ⟨0x20000000#32, 0xFF0000FF#32⟩
def rowTwStop : Row := ⟨0x30000000#32, 0xFF00FFFF#32⟩
def rowTwWrite : Row := ⟨0x40000000#32, 0xFF00FF00#32⟩
def rowTwRead : Row := ⟨0x50000000#32, 0xFE00FFFF#32⟩
def rowTwWritebyte : Row := ⟨0x60000000#32, 0xFF008000#32⟩
def rowTwReadbyte : Row := ⟨0x70000000#32, 0xFF0080FF#32⟩
def rowScBegin : Row := ⟨0x80000000#32, 0xFFFFFFFF#32⟩
def rowScSend : Row := ⟨0x90000000#32, 0xFFFFFF00#32⟩
def rowScReceive : Row := ⟨0xA0000000#32, 0xFFFFFFFF#32⟩
def rowScTransfer : Row := ⟨0xB0000000#32, 0xFFFFFF00#32⟩

/-- The table of 30 R49, in the order of the opcode map. -/
def rows : List Row :=
  [rowTwInit, rowTwStart, rowTwRestart, rowTwStop, rowTwWrite, rowTwRead,
   rowTwWritebyte, rowTwReadbyte, rowScBegin, rowScSend, rowScReceive, rowScTransfer]

/-- The row of an instruction (30 R48, R49). -/
def Instr.row : Instr → Row
  | .twInit _ => rowTwInit
  | .twStart _ _ => rowTwStart
  | .twRestart _ _ => rowTwRestart
  | .twStop _ => rowTwStop
  | .twWrite _ _ => rowTwWrite
  | .twRead _ _ => rowTwRead
  | .twWritebyte _ _ _ => rowTwWritebyte
  | .twReadbyte _ _ => rowTwReadbyte
  | .scBegin => rowScBegin
  | .scSend _ => rowScSend
  | .scReceive => rowScReceive
  | .scTransfer _ => rowScTransfer

/-- The word's row decides: the instruction if the word matches it, else rejected (30 R51). -/
def decodeRow (r : Row) (w : Word) (i : Instr) : Except Illegal Instr :=
  if r.matches w then .ok i else .error .mustBeZero

/-- Decode a whole word (30 R48, R53): `OP` selects the row, operands are taken as they stand (30 R47). -/
def decode (w : Word) : Except Illegal Instr :=
  match (opField w).toNat with
  | 0 => decodeRow rowTwInit w (.twInit (flagField w))
  | 1 => decodeRow rowTwStart w (.twStart (chField w).toNat (addrField w))
  | 2 => decodeRow rowTwRestart w (.twRestart (chField w).toNat (addrField w))
  | 3 => decodeRow rowTwStop w (.twStop (chField w).toNat)
  | 4 => decodeRow rowTwWrite w (.twWrite (chField w).toNat (dataField w))
  | 5 => decodeRow rowTwRead w (.twRead (chField w).toNat (flagField w))
  | 6 => decodeRow rowTwWritebyte w (.twWritebyte (chField w).toNat (addr7Field w) (dataField w))
  | 7 => decodeRow rowTwReadbyte w (.twReadbyte (chField w).toNat (addr7Field w))
  | 8 => decodeRow rowScBegin w .scBegin
  | 9 => decodeRow rowScSend w (.scSend (dataField w))
  | 10 => decodeRow rowScReceive w .scReceive
  | 11 => decodeRow rowScTransfer w (.scTransfer (dataField w))
  | _ => .error .reservedOpcode

/-- The encoding formula of 30 R55: `(OP << 28) | (F << 24) | (ch << 16) | (A << 8) | D`. -/
def encodeFields (op : BitVec 4) (f : Bit) (ch : BitVec 8) (a : Byte) (d : Byte) : Word :=
  op.setWidth 32 <<< 28 ||| (BitVec.ofBool f).setWidth 32 <<< 24 ||| ch.setWidth 32 <<< 16
    ||| a.setWidth 32 <<< 8 ||| d.setWidth 32

/-- The word of a well-formed instruction (30 R46 to R48, R55). An ill-formed channel index has no word (30 R54: an
assembly error); this function then answers some word that no statement is about. DESIGN CHOICE, safe: log 17. -/
def encode : Instr → Word
  | .twInit outer => encodeFields 0x0#4 outer 0#8 0#8 0#8
  | .twStart ch abyte => encodeFields 0x1#4 false (BitVec.ofNat 8 ch) abyte 0#8
  | .twRestart ch abyte => encodeFields 0x2#4 false (BitVec.ofNat 8 ch) abyte 0#8
  | .twStop ch => encodeFields 0x3#4 false (BitVec.ofNat 8 ch) 0#8 0#8
  | .twWrite ch v => encodeFields 0x4#4 false (BitVec.ofNat 8 ch) 0#8 v
  | .twRead ch last => encodeFields 0x5#4 last (BitVec.ofNat 8 ch) 0#8 0#8
  | .twWritebyte ch addr7 v => encodeFields 0x6#4 false (BitVec.ofNat 8 ch) (addr7.setWidth 8) v
  | .twReadbyte ch addr7 => encodeFields 0x7#4 false (BitVec.ofNat 8 ch) (addr7.setWidth 8) 0#8
  | .scBegin => encodeFields 0x8#4 false 0#8 0#8 0#8
  | .scSend v => encodeFields 0x9#4 false 0#8 0#8 v
  | .scReceive => encodeFields 0xA#4 false 0#8 0#8 0#8
  | .scTransfer v => encodeFields 0xB#4 false 0#8 0#8 v

/-- The address byte (40 R73): `(zext_8(addr7) << 1) | rw`, with rw 1 for read and 0 for write. -/
def addressByte (addr7 : BitVec 7) (rw : Bit) : Byte :=
  addr7.setWidth 8 <<< 1 ||| (BitVec.ofBool rw).setWidth 8

/-- A pseudo-instruction expands to exactly one command (30 R56). -/
def Pseudo.expand : Pseudo → Instr
  | .startw ch addr7 => .twStart ch (addressByte addr7 false)
  | .startr ch addr7 => .twStart ch (addressByte addr7 true)
  | .restartw ch addr7 => .twRestart ch (addressByte addr7 false)
  | .restartr ch addr7 => .twRestart ch (addressByte addr7 true)
  | .readack ch => .twRead ch false
  | .readnak ch => .twRead ch true

/-- The command word that the low `nbits` bits of `w` are, every bit above them 0 (30 R45: a word is delivered whole,
so no byte order applies, 20 R40). -/
def tableWord (nbits w : Nat) : Word := BitVec.ofNat 32 (w % 2 ^ nbits)

/-- What the decoder reads from an instruction whose bits are `w`, numbered as spec/opcode_table.json numbers them. -/
def decodeTableWord (nbits w : Nat) : Option Instr :=
  match decode (tableWord nbits w) with
  | .ok i => some i
  | .error _ => none

end Sys2Proof
end

