-- ==== Sys2Proof/Config.lean ====
section
/-! DEFINITION. What an implementation fixes (spec/00_scope.md R6, spec/10_state.md R14 to R16), the pin events
the environment can see (10 R22), and the environment oracle, which is a free value (spec/20_memory.md R33). -/

namespace Sys2Proof

/-- The identity of one physical digital line (00 R6). The spec leaves the type OPEN, finite with decidable equality;
a number is only a name here, and a configuration names finitely many. DESIGN CHOICE, safe: log 9. -/
abbrev PinId := Nat

/-- The direction `PinSetDir` sets (00 R9): IN or OUT. -/
inductive Dir where
  | input
  | output
  deriving DecidableEq, Repr

/-- The events of the trace that concern pins (10 R22), which are all a peer may see. -/
inductive PinEvent where
  | dir (p : PinId) (d : Dir)
  | lvl (p : PinId) (b : Bit)
  | pull (p : PinId) (b : Bit)
  | bcast (b : Bit)
  | wait
  | smp (p : PinId) (b : Bit)
  deriving DecidableEq, Repr

/-- The configuration of 00 R6, fixed when the hardware is built. `TW_N` is the length of `twSda` (10 R16: channel c is
the c-th data pin supplied, counted from 0). Every value is OPEN in the spec. -/
structure Config where
  /-- `TW_SDA[0]` to `TW_SDA[TW_N-1]`. -/
  twSda : List PinId
  /-- `TW_SCL`, the one clock pin all channels share. -/
  twScl : PinId
  /-- `TW_DELAY_US`, the half-bit delay in microseconds. The model keeps no time (20 R36): log 15. -/
  twDelayUs : Nat
  /-- `SC_CPOL`, the clock's idle level. -/
  scCpol : Bit
  /-- `SC_CPHA`, the clock phase. -/
  scCpha : Bit
  /-- `SC_PULLUP`, the input pull-up flag. -/
  scPullup : Bit
  scClk : PinId
  scIn : PinId
  scOut : PinId
  deriving DecidableEq, Repr

/-- `TW_N`, the number of two-wire channels. -/
def Config.twN (c : Config) : Nat := c.twSda.length

/-- Every bound pin (00 R7). -/
def Config.pins (c : Config) : List PinId := c.twSda ++ [c.twScl, c.scClk, c.scIn, c.scOut]

/-- The configuration `State.reset` carries. The spec leaves every value OPEN; two channels, the least legal delay,
serial-clock mode 0, no pull-up, pins named 0 to 5. DESIGN CHOICE, unsafe: log 2. Statements quantify over every
configuration instead of resting on this one. -/
def Config.reference : Config where
  twSda := [0, 1]
  twScl := 2
  twDelayUs := 1
  scCpol := false
  scCpha := false
  scPullup := false
  scClk := 3
  scIn := 4
  scOut := 5

/-- The environment oracle `ENV(Tpins, p)` of 20 R33: the answer to a sample of pin `p` after the pin events `Tpins`.
It is unconstrained, so it has no body: a free value. DESIGN CHOICE, safe: log 4. -/
opaque Config.env : List PinEvent → PinId → Bit

end Sys2Proof
end

