-- ==== Sys2Proof/Machine/State.lean ====
section
/-! DEFINITION. The whole machine state as plain data (spec/10_state.md R27), the reasons a step stops, and reset
(spec/70_reset_and_hazards.md R104). The spec's tuple is `(DIR, LAT, PU, RES, FLT, cp, T)`; its parameters (the
configuration, `PROG` and the environment's answers) stand in the state too, because the step takes nothing else. -/

namespace Sys2Proof.Machine

/-- What a pin field holds (10 R17): the spec's third value UNK, until it is first set, or a value. -/
inductive Held (α : Type) where
  | unk
  | is (a : α)
  deriving DecidableEq, Repr

/-- One field of every pin: the pins that have been set, with their values, pins strictly rising. A pin that is not
listed holds UNK. Log 10. -/
abbrev PinFile (α : Type) := List (PinId × α)

/-- An event of the trace (10 R22): the start of a command, or a pin event. -/
inductive Event where
  | cmd (w : Word)
  | pin (e : PinEvent)
  deriving DecidableEq, Repr

/-- The result register `RES` (10 R19). -/
inductive Result where
  | none
  | ack (b : Bit)
  | byte (v : Byte)
  deriving DecidableEq, Repr

/-- The fault register `FLT` (10 R23): `NONE`, or the faulting word and its index in `PROG`. -/
inductive FaultReg where
  | none
  | illegalCommand (w : Word) (k : Nat)
  deriving DecidableEq, Repr

/-- Why the machine has stopped with a fault. -/
inductive Fault where
  /-- The controller is faulted: `FLT` is `IllegalCommand(w, k)`, so it executes no further command (10 R23, R28).
  Answered by `fetch` (for `step`) in every faulted state; the step that meets the illegal word is itself a next state
  (60 R89). Safe: log 7. -/
  | illegalCommand (w : Word) (k : Nat)
  deriving DecidableEq, Repr

/-- Why a step has no meaning. -/
inductive Refusal where
  /-- An instruction without a meaning, by its mnemonic. Answered by `exec` only, and by no arm of it. Safe. -/
  | notModelled (mnemonic : String)
  /-- `cp` has reached the end of `PROG`: the run has ended normally and the state has no step (10 R28, 70 R109).
  Answered by `fetch`. Safe: log 6. -/
  | programEnded
  /-- The configuration binds one pin twice or holds a value outside its legal range: it is refused as a whole, no
  launch exists for it (00 R6, R7; 10 R14). Answered by `fetch`. Safe: log 8. -/
  | configurationRefused
  deriving DecidableEq, Repr

/-- The machine. No command changes `cfg` or `prog`. -/
structure State where
  /-- The configuration registers and pin bindings (10 R14 to R16), as built. Log 1. -/
  cfg : Config
  /-- `PROG`, the caller's command words (10 R21); the controller never writes it (20 R44). Log 3. -/
  prog : List Word
  /-- The model's own field: the environment's answers to the samples it answers, in order. When it is empty the answer is the
  free value `Config.env`. Logs 4 and 5. -/
  answers : List Bit
  /-- `DIR` (10 R17). -/
  dir : PinFile Dir
  /-- `LAT` (10 R17). -/
  lat : PinFile Bit
  /-- `PU` (10 R17). -/
  pu : PinFile Bit
  /-- `RES` (10 R19). -/
  res : Result
  /-- `FLT` (10 R23). -/
  flt : FaultReg
  /-- `cp`, the command pointer (10 R21). -/
  cp : Nat
  /-- `T`, the trace, oldest event first (10 R22). -/
  trace : List Event
  deriving DecidableEq, Repr

/-- The state right after reset (70 R104) of a machine built with configuration `c`, given the program `prog` and the
environment's answers: every pin UNK, `RES` and `FLT` NONE, `cp` 0, `T` empty. -/
def State.resetWith (c : Config) (prog : List Word) (answers : List Bit) : State where
  cfg := c
  prog := prog
  answers := answers
  dir := []
  lat := []
  pu := []
  res := .none
  flt := .none
  cp := 0
  trace := []

/-- The machine right after reset. The configuration is the reference build, no program is loaded and no answer is
scripted: DESIGN CHOICE, logs 2, 3 and 5. -/
def State.reset : State := State.resetWith Config.reference [] []

end Sys2Proof.Machine
end

