-- ==== Sys2Proof/Machine/Ops.lean ====
section
/-! DEFINITION. The named operations: pin files, the pin primitives of spec/20_memory.md R30 to R36, the line level
(R32), the environment's answer (R33), the result and fault registers, fetching a command, and the one fault
(spec/60_exceptions.md R89). -/

namespace Sys2Proof.Machine

/-! ## Pin files (10 R17) -/

/-- What pin `p` holds: UNK until it is set. -/
def pinRead {α : Type} : PinFile α → PinId → Held α
  | [], _ => .unk
  | (q, a) :: f, p => if q = p then .is a else pinRead f p

/-- Set pin `p` to `v`, keeping the pins strictly rising. -/
def pinWrite {α : Type} : PinFile α → PinId → α → PinFile α
  | [], p, v => [(p, v)]
  | (q, a) :: f, p, v =>
    if q = p then (p, v) :: f
    else if p < q then (p, v) :: (q, a) :: f
    else (q, a) :: pinWrite f p v

/-- The canonical form: pins strictly rising. Equal contents are then equal data. -/
abbrev pinFileWf {α : Type} (f : PinFile α) : Prop := (f.map Prod.fst).Pairwise (· < ·)

/-- `DIR[p]`, `LAT[p]` and `PU[p]`. -/
def State.dirOf (s : State) (p : PinId) : Held Dir := pinRead s.dir p
def State.latOf (s : State) (p : PinId) : Held Bit := pinRead s.lat p
def State.puOf (s : State) (p : PinId) : Held Bit := pinRead s.pu p

/-! ## Lines (20 R32) -/

/-- The level a peer sees on a line, as far as the controller decides it. -/
inductive Line where
  /-- Driven by the controller at a known level. -/
  | driven (b : Bit)
  /-- Driven, level not known. -/
  | unknown
  /-- Not driven by the controller: the environment decides. -/
  | environment
  deriving DecidableEq, Repr

/-- `LINE(p)` of 20 R32. -/
def line (s : State) (p : PinId) : Line :=
  match s.dirOf p, s.latOf p with
  | .is .output, .is b => .driven b
  | .is .output, .unk => .unknown
  | .is .input, _ => .environment
  | .unk, _ => .environment

/-! ## Pin primitives (20 R30 to R36) -/

/-- `Tpins`: the trace without its `Cmd` events (20 R33). -/
def pinEvents : List Event → List PinEvent
  | [] => []
  | .cmd _ :: t => pinEvents t
  | .pin e :: t => e :: pinEvents t

/-- `PinSetDir(p, d)` (20 R30). -/
def pinSetDir (p : PinId) (d : Dir) (s : State) : State :=
  { s with dir := pinWrite s.dir p d, trace := s.trace ++ [.pin (.dir p d)] }

/-- `PinSet(p, b)` (20 R31). -/
def pinSet (p : PinId) (b : Bit) (s : State) : State :=
  { s with lat := pinWrite s.lat p b, trace := s.trace ++ [.pin (.lvl p b)] }

/-- `PinPull(p, b)` (20 R34). -/
def pinPull (p : PinId) (b : Bit) (s : State) : State :=
  { s with pu := pinWrite s.pu p b, trace := s.trace ++ [.pin (.pull p b)] }

/-- Set a pin file at each of the given pins. -/
def pinWriteAll {α : Type} (f : PinFile α) (ps : List PinId) (v : α) : PinFile α :=
  ps.foldl (fun f p => pinWrite f p v) f

/-- `BcastData(b)` (20 R35): every data latch at once, one event. -/
def bcastData (b : Bit) (s : State) : State :=
  { s with lat := pinWriteAll s.lat s.cfg.twSda b, trace := s.trace ++ [.pin (.bcast b)] }

/-- `Delay()` (20 R36): a marker, no time is kept. -/
def delay (s : State) : State :=
  { s with trace := s.trace ++ [.pin .wait] }

/-- The environment's answer to a sample of `p` after trace `t`: the next scripted answer, or the free value
`ENV(Tpins, p)` when none is scripted (20 R33). Log 4. -/
def envAnswer (answers : List Bit) (t : List Event) (p : PinId) : Bit :=
  match answers with
  | b :: _ => b
  | [] => Config.env (pinEvents t) p

/-- `PinGet(p)` (20 R33): the latch of a driven pin whose latch is known, else the environment's answer. -/
def pinGet (p : PinId) (s : State) : Bit × State :=
  match line s p with
  | .driven b => (b, { s with trace := s.trace ++ [.pin (.smp p b)] })
  | .unknown =>
    (envAnswer s.answers s.trace p,
     { s with answers := s.answers.tail, trace := s.trace ++ [.pin (.smp p (envAnswer s.answers s.trace p))] })
  | .environment =>
    (envAnswer s.answers s.trace p,
     { s with answers := s.answers.tail, trace := s.trace ++ [.pin (.smp p (envAnswer s.answers s.trace p))] })

/-! ## Result register, command pointer, start of a command -/

/-- `RES <- r` (00 R9, 10 R19). -/
def writeRes (r : Result) (s : State) : State := { s with res := r }

/-- A command's first event, `Cmd(w)` (10 R22). -/
def startCommand (w : Word) (s : State) : State := { s with trace := s.trace ++ [.cmd w] }

/-- `cp <- cp + 1` (10 R21). -/
def advance (s : State) : State := { s with cp := s.cp + 1 }

/-- `raise IllegalCommand(w, k)` (60 R89): `FLT` alone is written; no pin event, no `RES` write, `cp` unchanged. There is
no return from it (60 R94). -/
def raiseIllegalCommand (w : Word) (k : Nat) (s : State) : State := { s with flt := .illegalCommand w k }

/-! ## Fetching a command -/

/-- A configuration is admitted if the bound pins are pairwise distinct (00 R7) and every value is in its legal range
(00 R6, 10 R14). Log 8. -/
def admitted (c : Config) : Bool :=
  decide c.pins.Nodup && decide (c.twN ≤ 256) && decide (1 ≤ c.twDelayUs) && decide (c.twDelayUs < 2 ^ 32)

/-- The next command word, `PROG[cp]` (10 R21), or why there is none: a refused configuration (00 R7), a faulted
controller (10 R23), the end of the program (10 R28). -/
def fetch (s : State) : Host.Outcome Word Fault Refusal :=
  if admitted s.cfg then
    match s.flt with
    | .illegalCommand w k => .fault (.illegalCommand w k)
    | .none =>
      match s.prog[s.cp]? with
      | some w => .next w
      | none => .refused .programEnded
  else .refused .configurationRefused

/-- A program with word `w` at index `k`; if it ended before, it is first filled up with zero words (TW.INIT 0). -/
def placeWord : List Word → Nat → Word → List Word
  | [], 0, w => [w]
  | [], k + 1, w => 0#32 :: placeWord [] k w
  | _ :: ws, 0, w => w :: ws
  | x :: ws, k + 1, w => x :: placeWord ws k w

/-! ## Configuration registers as words (10 R14, R15) -/

/-- Register 0, `TW_CFG`: `TW_N` in [8:0], the rest hardwired 0. -/
def twCfgWord (c : Config) : Word := (BitVec.ofNat 9 c.twN).setWidth 32

/-- Register 1, `TW_DLY`: `TW_DELAY_US`. -/
def twDlyWord (c : Config) : Word := BitVec.ofNat 32 c.twDelayUs

/-- Register 2, `SC_CFG`: `SC_CPHA` in [0], `SC_CPOL` in [1], `SC_PULLUP` in [2], the rest hardwired 0. The bit places
are PRESUMED by the spec itself (93 G1), safe: log 16. -/
def scCfgWord (c : Config) : Word :=
  (BitVec.ofBool c.scCpha).setWidth 32 ||| (BitVec.ofBool c.scCpol).setWidth 32 <<< 1
    ||| (BitVec.ofBool c.scPullup).setWidth 32 <<< 2

/-- The serial-clock mode number, `SC_CFG[1:0]` (10 R15); a name only. -/
def scMode (c : Config) : BitVec 2 := (scCfgWord c).extractLsb' 0 2

end Sys2Proof.Machine
end

