-- ==== Sys2Proof/Machine/Operands.lean ====
section
/-! DEFINITION. Operand forms: channel selection (spec/40_twowire.md R59, R60), the order of the bits of a byte
(spec/20_memory.md R40) and the assembly of a byte from samples (40 R64, R74). The address byte (40 R73) stands in
Decode.lean, where the pseudo-instructions use it. -/

namespace Sys2Proof.Machine

/-- The data pin of channel `ch`, or none when `ch ≥ TW_N` (40 R59, R60). -/
def channelPin (c : Config) (ch : Nat) : Option PinId := c.twSda[ch]?

/-- `for i in 7 downto 0` (00 R8): most significant bit first (20 R40). -/
def bitOrder : List Nat := [7, 6, 5, 4, 3, 2, 1, 0]

/-- `v[i]`. -/
def bitAt (v : Byte) (i : Nat) : Bit := v.getLsbD i

/-- `acc | (zext_8(b) << i)`. -/
def orBit (acc : Byte) (i : Nat) (b : Bit) : Byte := acc ||| (BitVec.ofBool b).setWidth 8 <<< i

end Sys2Proof.Machine
end

