-- ==== Sys2Proof/Machine/Flags.lean ====
section
/-! DEFINITION. The one status flag, the acknowledgment bit (spec/10_state.md R20), and the encoding of results and
faults for a platform (spec/30_encoding.md R58, spec/60_exceptions.md R90). -/

namespace Sys2Proof.Machine

/-- The acknowledgment bit from the level sampled in the 9th pulse: 1 when the line was low (10 R20, 40 R62). -/
def ackBit (sampled : Bit) : Bit := !sampled

/-- TW.WRITEBYTE's acknowledgment: both bytes were acknowledged (40 R71). -/
def bothAck (a1 a2 : Bit) : Bit := a1 && a2

/-- The fault code (60 R90): 0 for NONE, 1 for `IllegalCommand`. -/
def faultCode : FaultReg → Nat
  | .none => 0
  | .illegalCommand _ _ => 1

/-- Bit [15] of the result word: 1 if `FLT` is not NONE. -/
def faultBit : FaultReg → BitVec 1
  | .none => 0#1
  | .illegalCommand _ _ => 1#1

/-- Bits [9:8] of the result word: 00 NONE, 01 ACK, 10 BYTE; 11 is never produced. -/
def resultKind : Result → BitVec 2
  | .none => 0#2
  | .ack _ => 1#2
  | .byte _ => 2#2

/-- Bits [7:0] of the result word. -/
def resultData : Result → Byte
  | .none => 0#8
  | .ack b => (BitVec.ofBool b).setWidth 8
  | .byte v => v

/-- The 16-bit result word of `RES` and `FLT` (30 R58): fault bit, five zero bits, kind, data. -/
def resultWord (s : State) : BitVec 16 :=
  (faultBit s.flt ++ 0#5 ++ resultKind s.res ++ resultData s.res).cast (by decide)

end Sys2Proof.Machine
end

