-- ==== Sys2Proof/Machine/SerialClock.lean ====
section
/-! DEFINITION. The serial-clock engine (spec/41_serialclock.md): the per-bit protocol `SC_Bit` (R79) and one meaning
per command (R78, R80 to R82), line by line as the pseudocode. -/

namespace Sys2Proof.Machine

/-- `SC_Bit(doTx, b, doRx)` (41 R79). -/
def scBit (doTx : Bit) (b : Bit) (doRx : Bit) (s : State) : Bit × State :=
  let s := if s.cfg.scCpha then pinSet s.cfg.scClk (!s.cfg.scCpol) s else s
  let s := if doTx then pinSet s.cfg.scOut b s else s
  let s := if s.cfg.scCpha then pinSet s.cfg.scClk s.cfg.scCpol s else pinSet s.cfg.scClk (!s.cfg.scCpol) s
  let r := if doRx then pinGet s.cfg.scIn s else (false, s)
  let s := if r.2.cfg.scCpha then r.2 else pinSet r.2.cfg.scClk r.2.cfg.scCpol r.2
  (r.1, s)

/-- One received bit: `acc <- acc | (zext_8(s) << i)` (41 R81, R82). -/
def scRxBit (doTx : Bit) (b : Bit) (r : Byte × State) (i : Nat) : Byte × State :=
  let g := scBit doTx b true r.2
  (orBit r.1 i g.1, g.2)

/-- SC.BEGIN (41 R78). -/
def execScBegin (s : State) : Host.Outcome State Fault Refusal :=
  let s := pinSetDir s.cfg.scIn .input s
  let s := pinPull s.cfg.scIn s.cfg.scPullup s
  let s := pinSetDir s.cfg.scOut .output s
  let s := pinSetDir s.cfg.scClk .output s
  let s := pinSet s.cfg.scClk s.cfg.scCpol s
  let s := pinSet s.cfg.scOut (!s.cfg.scCpha) s
  .next (writeRes .none s)

/-- SC.SEND (41 R80). -/
def execScSend (v : Byte) (s : State) : Host.Outcome State Fault Refusal :=
  .next (writeRes .none (bitOrder.foldl (fun s i => (scBit true (bitAt v i) false s).2) s))

/-- SC.RECEIVE (41 R81). -/
def execScReceive (s : State) : Host.Outcome State Fault Refusal :=
  let r := bitOrder.foldl (fun r i => scRxBit false false r i) (0x00#8, s)
  .next (writeRes (.byte r.1) r.2)

/-- SC.TRANSFER (41 R82). -/
def execScTransfer (v : Byte) (s : State) : Host.Outcome State Fault Refusal :=
  let r := bitOrder.foldl (fun r i => scRxBit true (bitAt v i) r i) (0x00#8, s)
  .next (writeRes (.byte r.1) r.2)

end Sys2Proof.Machine
end

