-- ==== Sys2Proof/Machine/TwoWire.lean ====
section
/-! DEFINITION. The two-wire engine (spec/40_twowire.md): the byte primitives `TW_WriteBits` (R62) and `TW_ReadBits` (R64),
START-PART and STOP-PART (R66, R68, R71), and one meaning per command (R65 to R72), line by line as the pseudocode. -/

namespace Sys2Proof.Machine

/-- One data bit of `TW_WriteBits` (40 R62). -/
def twWriteBit (p : PinId) (b : Bit) (s : State) : State :=
  let s := pinSet p b s
  let s := delay s
  let s := pinSet s.cfg.twScl true s
  let s := delay s
  pinSet s.cfg.twScl false s

/-- `TW_WriteBits` (40 R62) on the data pin `p`: eight bits, then the acknowledgment pulse. -/
def twWriteBits (p : PinId) (v : Byte) (s : State) : Bit × State :=
  let s := bitOrder.foldl (fun s i => twWriteBit p (bitAt v i) s) s
  let s := pinSetDir p .input s
  let s := pinSet s.cfg.twScl true s
  let s := delay s
  let r := pinGet p s
  let s := pinSet r.2.cfg.twScl false r.2
  let s := pinSetDir p .output s
  (ackBit r.1, s)

/-- One bit of `TW_ReadBits` (40 R64): the accumulator and the state. -/
def twReadBit (p : PinId) (r : Byte × State) (i : Nat) : Byte × State :=
  let s := pinSet r.2.cfg.twScl true r.2
  let s := delay s
  let g := pinGet p s
  let s := pinSet g.2.cfg.twScl false g.2
  let s := delay s
  (orBit r.1 i g.1, s)

/-- `TW_ReadBits` (40 R64) on the data pin `p`: eight samples, then the controller's own ACK (0) or NAK (1). -/
def twReadBits (p : PinId) (last : Bit) (s : State) : Byte × State :=
  let s := pinSetDir p .input s
  let r := bitOrder.foldl (fun r i => twReadBit p r i) (0x00#8, s)
  let s := pinSetDir p .output r.2
  let s := pinSet p last s
  let s := pinSet s.cfg.twScl true s
  let s := delay s
  let s := pinSet s.cfg.twScl false s
  let s := pinSet p true s
  (r.1, s)

/-- START-PART (40 R66, R71): TW.START without its `RES` write; the bit TW.START would write. -/
def twStartPart (ch : Nat) (abyte : Byte) (s : State) : Bit × State :=
  if s.cfg.twN = 0 then (false, s)
  else
    let s := bcastData false s
    match channelPin s.cfg ch with
    | none => (false, s)
    | some p => twWriteBits p abyte (pinSet s.cfg.twScl false s)

/-- The addressed channel's part of TW.STOP (40 R68). -/
def twStopChannel (p : PinId) (s : State) : State :=
  let s := pinSet p false s
  let s := delay s
  let s := pinSet s.cfg.twScl true s
  let s := delay s
  pinSet p true s

/-- STOP-PART (40 R68, R71): TW.STOP without its `RES` write. -/
def twStopPart (ch : Nat) (s : State) : State :=
  if s.cfg.twN = 0 then s
  else
    let s :=
      match channelPin s.cfg ch with
      | none => s
      | some p => twStopChannel p s
    delay (bcastData true s)

/-- TW.INIT's steps on the shared clock pin, on the outermost call only (40 R65). -/
def twInitClock (s : State) : State :=
  let s := pinSetDir s.cfg.twScl .output s
  let s := pinSet s.cfg.twScl true s
  delay s

/-- TW.INIT (40 R65). -/
def execTwInit (outer : Bit) (s : State) : Host.Outcome State Fault Refusal :=
  .next <| writeRes .none <|
    if s.cfg.twN = 0 then s
    else
      let s := s.cfg.twSda.foldl (fun s p => pinSetDir p .output s) s
      let s := bcastData true s
      if outer then twInitClock s else s

/-- TW.START (40 R66). -/
def execTwStart (ch : Nat) (abyte : Byte) (s : State) : Host.Outcome State Fault Refusal :=
  let r := twStartPart ch abyte s
  .next (writeRes (.ack r.1) r.2)

/-- TW.RESTART (40 R67): the clock is raised, then the data line pulled low without being raised first; no broadcast. -/
def execTwRestart (ch : Nat) (abyte : Byte) (s : State) : Host.Outcome State Fault Refusal :=
  .next <|
    match channelPin s.cfg ch with
    | none => writeRes (.ack false) s
    | some p =>
      let s := pinSet s.cfg.twScl true s
      let s := pinSet p false s
      let s := pinSet s.cfg.twScl false s
      let r := twWriteBits p abyte s
      writeRes (.ack r.1) r.2

/-- TW.STOP (40 R68). -/
def execTwStop (ch : Nat) (s : State) : Host.Outcome State Fault Refusal :=
  .next (writeRes .none (twStopPart ch s))

/-- TW.WRITE (40 R69). -/
def execTwWrite (ch : Nat) (v : Byte) (s : State) : Host.Outcome State Fault Refusal :=
  .next <|
    match channelPin s.cfg ch with
    | none => writeRes (.ack false) s
    | some p =>
      let r := twWriteBits p v s
      writeRes (.ack r.1) r.2

/-- TW.READ (40 R70). -/
def execTwRead (ch : Nat) (last : Bit) (s : State) : Host.Outcome State Fault Refusal :=
  .next <|
    match channelPin s.cfg ch with
    | none => writeRes (.byte 0x00#8) s
    | some p =>
      let r := twReadBits p last s
      writeRes (.byte r.1) r.2

/-- TW.WRITEBYTE (40 R71): start, data byte whatever the address acknowledgment was, stop. -/
def execTwWritebyte (ch : Nat) (addr7 : BitVec 7) (v : Byte) (s : State) : Host.Outcome State Fault Refusal :=
  let r1 := twStartPart ch (addressByte addr7 false) s
  let r2 :=
    match channelPin r1.2.cfg ch with
    | none => (false, r1.2)
    | some p => twWriteBits p v r1.2
  .next (writeRes (.ack (bothAck r1.1 r2.1)) (twStopPart ch r2.2))

/-- TW.READBYTE (40 R72): start, one byte read with `last = 1`, stop; the address acknowledgment is not reported. -/
def execTwReadbyte (ch : Nat) (addr7 : BitVec 7) (s : State) : Host.Outcome State Fault Refusal :=
  let r1 := twStartPart ch (addressByte addr7 true) s
  let r2 :=
    match channelPin r1.2.cfg ch with
    | none => (0x00#8, r1.2)
    | some p => twReadBits p true r1.2
  .next (writeRes (.byte r2.1) (twStopPart ch r2.2))

end Sys2Proof.Machine
end

