-- ==== Sys2Proof/Machine/Dispatch.lean ====
section
/-! DEFINITION. One arm per constructor of Instr: the meaning of each command. -/

namespace Sys2Proof.Machine

def exec (i : Instr) (s : State) : Host.Outcome State Fault Refusal :=
  match i with
  | .twInit outer => Sys2Proof.Machine.execTwInit outer s
  | .twStart ch abyte => Sys2Proof.Machine.execTwStart ch abyte s
  | .twRestart ch abyte => Sys2Proof.Machine.execTwRestart ch abyte s
  | .twStop ch => Sys2Proof.Machine.execTwStop ch s
  | .twWrite ch v => Sys2Proof.Machine.execTwWrite ch v s
  | .twRead ch last => Sys2Proof.Machine.execTwRead ch last s
  | .twWritebyte ch addr7 v => Sys2Proof.Machine.execTwWritebyte ch addr7 v s
  | .twReadbyte ch addr7 => Sys2Proof.Machine.execTwReadbyte ch addr7 s
  | .scBegin => Sys2Proof.Machine.execScBegin s
  | .scSend v => Sys2Proof.Machine.execScSend v s
  | .scReceive => Sys2Proof.Machine.execScReceive s
  | .scTransfer v => Sys2Proof.Machine.execScTransfer v s

end Sys2Proof.Machine
end

