-- ==== Sys2Proof/Machine/Step.lean ====
section
/-! DEFINITION. One step: the controller executes the whole of `PROG[cp]` (spec/10_state.md R21, R27). -/

namespace Sys2Proof.Machine

/-- Fetch `PROG[cp]`, record `Cmd(w)`, decode the whole word before any pin event (30 R53); an illegal word raises the
fault (60 R89), a legal one is executed and `cp` advances (10 R21). Log 12. -/
def step (s : State) : Host.Outcome State Fault Refusal :=
  match fetch s with
  | .fault r => .fault r
  | .refused r => .refused r
  | .next w =>
    match decode w with
    | .error _ => .next (raiseIllegalCommand w s.cp (startCommand w s))
    | .ok i =>
      match exec i (startCommand w s) with
      | .next t => .next (advance t)
      | .fault r => .fault r
      | .refused r => .refused r

/-- `s` with the instruction whose bits are `w` placed at `PROG[cp]`, the caller's load of a word. A fetch needs the
controller not to be faulted (10 R23), so `FLT` is NONE. Logs 3 and 13. -/
def State.withFetchWord (s : State) (nbits w : Nat) : State :=
  { s with prog := placeWord s.prog s.cp (tableWord nbits w), flt := .none }

end Sys2Proof.Machine
end

