-- ==== Sys2Proof/Machine/Assembly.lean ====
section
/-! DEFINITION. The assembly syntax of spec/30_encoding.md R54 to R56: one command a line, operands separated by commas,
`;` starts a comment, mnemonics in either case, decimal or `0x` literals, an operand out of range an error and never a
truncation. The points of the text form that R54 leaves open (white space, upper-case `0X`) are DESIGN CHOICE: log 18. -/

namespace Sys2Proof.Assembly

/-- Why a line does not assemble. -/
inductive AsmError where
  | unknownMnemonic
  | operandCount
  | badNumber
  | operandRange
  deriving DecidableEq, Repr

/-- What a mnemonic names: the twelve commands (30 R54) and the six pseudo-instructions (30 R56). -/
inductive Keyword where
  | twInit | twStart | twRestart | twStop | twWrite | twRead | twWritebyte | twReadbyte
  | scBegin | scSend | scReceive | scTransfer
  | twStartw | twStartr | twRestartw | twRestartr | twReadack | twReadnak
  deriving DecidableEq, Repr

/-! ## Text -/

def lowerChar (c : Char) : Char := if 'A' ≤ c ∧ c ≤ 'Z' then Char.ofNat (c.toNat + 32) else c

def isBlank (c : Char) : Bool := c == ' ' || c == '\t' || c == '\r'

/-- The text before a comment. -/
def beforeComment : List Char → List Char
  | [] => []
  | c :: cs => if c = ';' then [] else c :: beforeComment cs

def trimLeft : List Char → List Char
  | [] => []
  | c :: cs => if isBlank c then trimLeft cs else c :: cs

def trim (cs : List Char) : List Char := (trimLeft (trimLeft cs).reverse).reverse

/-- The pieces between separators: one piece more than there are separators. -/
def splitAtChar (sep : Char) : List Char → List (List Char)
  | [] => [[]]
  | c :: cs =>
    match splitAtChar sep cs with
    | [] => [[c]]
    | w :: ws => if c = sep then [] :: w :: ws else (c :: w) :: ws

/-- A line's first word and the rest. -/
def firstWord : List Char → List Char × List Char
  | [] => ([], [])
  | c :: cs => if isBlank c then ([], cs) else let r := firstWord cs; (c :: r.1, r.2)

/-! ## Numbers (30 R55) -/

def digit? (base : Nat) (c : Char) : Option Nat :=
  let d :=
    if '0' ≤ c ∧ c ≤ '9' then c.toNat - 48
    else if 'a' ≤ c ∧ c ≤ 'f' then c.toNat - 87
    else 16
  if d < base then some d else none

def digits? (base : Nat) : Nat → List Char → Option Nat
  | acc, [] => some acc
  | acc, c :: cs =>
    match digit? base c with
    | some d => digits? base (acc * base + d) cs
    | none => none

/-- A decimal literal, or a hexadecimal one after `0x`; the text is in lower case. -/
def number? : List Char → Option Nat
  | [] => none
  | '0' :: 'x' :: [] => none
  | '0' :: 'x' :: cs => digits? 16 0 cs
  | cs => digits? 10 0 cs

def numbers? : List (List Char) → Option (List Nat)
  | [] => some []
  | w :: ws =>
    match number? (trim w), numbers? ws with
    | some n, some ns => some (n :: ns)
    | _, _ => none

/-! ## Operands (30 R54) -/

def flagOf (n : Nat) : Except AsmError Bit :=
  if n < 2 then .ok (decide (n = 1)) else .error .operandRange

def channelOf (n : Nat) : Except AsmError Nat :=
  if n < 256 then .ok n else .error .operandRange

def byteOf (n : Nat) : Except AsmError Byte :=
  if n < 256 then .ok (BitVec.ofNat 8 n) else .error .operandRange

def addr7Of (n : Nat) : Except AsmError (BitVec 7) :=
  if n < 128 then .ok (BitVec.ofNat 7 n) else .error .operandRange

def keywords : List (String × Keyword) :=
  [("tw.init", .twInit), ("tw.start", .twStart), ("tw.restart", .twRestart), ("tw.stop", .twStop),
   ("tw.write", .twWrite), ("tw.read", .twRead), ("tw.writebyte", .twWritebyte), ("tw.readbyte", .twReadbyte),
   ("sc.begin", .scBegin), ("sc.send", .scSend), ("sc.receive", .scReceive), ("sc.transfer", .scTransfer),
   ("tw.startw", .twStartw), ("tw.startr", .twStartr), ("tw.restartw", .twRestartw), ("tw.restartr", .twRestartr),
   ("tw.readack", .twReadack), ("tw.readnak", .twReadnak)]

def keyword? (cs : List Char) : List (String × Keyword) → Option Keyword
  | [] => none
  | (name, k) :: ks => if name.toList = cs then some k else keyword? cs ks

/-- The command a keyword and its operands name, every operand checked against its range. -/
def command (k : Keyword) (ops : List Nat) : Except AsmError Instr :=
  match k, ops with
  | .twInit, [o] => do return .twInit (← flagOf o)
  | .twStart, [c, a] => do return .twStart (← channelOf c) (← byteOf a)
  | .twRestart, [c, a] => do return .twRestart (← channelOf c) (← byteOf a)
  | .twStop, [c] => do return .twStop (← channelOf c)
  | .twWrite, [c, v] => do return .twWrite (← channelOf c) (← byteOf v)
  | .twRead, [c, l] => do return .twRead (← channelOf c) (← flagOf l)
  | .twWritebyte, [c, a, v] => do return .twWritebyte (← channelOf c) (← addr7Of a) (← byteOf v)
  | .twReadbyte, [c, a] => do return .twReadbyte (← channelOf c) (← addr7Of a)
  | .scBegin, [] => .ok .scBegin
  | .scSend, [v] => do return .scSend (← byteOf v)
  | .scReceive, [] => .ok .scReceive
  | .scTransfer, [v] => do return .scTransfer (← byteOf v)
  | .twStartw, [c, a] => do return (Pseudo.startw (← channelOf c) (← addr7Of a)).expand
  | .twStartr, [c, a] => do return (Pseudo.startr (← channelOf c) (← addr7Of a)).expand
  | .twRestartw, [c, a] => do return (Pseudo.restartw (← channelOf c) (← addr7Of a)).expand
  | .twRestartr, [c, a] => do return (Pseudo.restartr (← channelOf c) (← addr7Of a)).expand
  | .twReadack, [c] => do return (Pseudo.readack (← channelOf c)).expand
  | .twReadnak, [c] => do return (Pseudo.readnak (← channelOf c)).expand
  | _, _ => .error .operandCount

/-- The command line of an instruction, as keyword and operands (30 R54). -/
def operandsOf : Instr → Keyword × List Nat
  | .twInit outer => (.twInit, [outer.toNat])
  | .twStart ch abyte => (.twStart, [ch, abyte.toNat])
  | .twRestart ch abyte => (.twRestart, [ch, abyte.toNat])
  | .twStop ch => (.twStop, [ch])
  | .twWrite ch v => (.twWrite, [ch, v.toNat])
  | .twRead ch last => (.twRead, [ch, last.toNat])
  | .twWritebyte ch addr7 v => (.twWritebyte, [ch, addr7.toNat, v.toNat])
  | .twReadbyte ch addr7 => (.twReadbyte, [ch, addr7.toNat])
  | .scBegin => (.scBegin, [])
  | .scSend v => (.scSend, [v.toNat])
  | .scReceive => (.scReceive, [])
  | .scTransfer v => (.scTransfer, [v.toNat])

/-- One line: its command word, or none where it holds no command. -/
def assembleLine (text : List Char) : Except AsmError (Option Word) :=
  let body := trim ((beforeComment text).map lowerChar)
  if body = [] then .ok none
  else
    let parts := firstWord body
    let rest := trim parts.2
    match keyword? parts.1 keywords with
    | none => .error .unknownMnemonic
    | some k =>
      match numbers? (if rest = [] then [] else splitAtChar ',' rest) with
      | none => .error .badNumber
      | some ops =>
        match command k ops with
        | .error e => .error e
        | .ok i => .ok (some (encode i))

def assembleLines : List (List Char) → Except AsmError (List Word)
  | [] => .ok []
  | l :: ls =>
    match assembleLine l, assembleLines ls with
    | .error e, _ => .error e
    | .ok _, .error e => .error e
    | .ok none, .ok ws => .ok ws
    | .ok (some w), .ok ws => .ok (w :: ws)

/-- A program text: its command words in order. -/
def assemble (text : String) : Except AsmError (List Word) := assembleLines (splitAtChar '\n' text.toList)

end Sys2Proof.Assembly
end

