-- ==== Sys2Proof/Safety.lean ====
section
/-! DEFINITION. What counts as a safe run, in the terms claims use: event lists as spec/95_test_vectors.md abbreviates
them, what the environment answers (spec/20_memory.md R33) and the premises a claim may take, what a trace says of each pin
(spec/10_state.md R17), the idle bus (spec/40_twowire.md R65), the transaction discipline (spec/70_reset_and_hazards.md R111),
and the machine's invariant. Nothing here is used by the machine. -/

namespace Sys2Proof.Safety

open Sys2Proof.Machine

/-! ## Bytes on the wire -/

/-- The bits of a byte in wire order, `v[7]` first (20 R40). -/
def msbFirst (v : Byte) : List Bit :=
  [v.getLsbD 7, v.getLsbD 6, v.getLsbD 5, v.getLsbD 4, v.getLsbD 3, v.getLsbD 2, v.getLsbD 1, v.getLsbD 0]

/-- The byte whose wire order is the given list: `s0·2^7 + s1·2^6 + ... + s7·2^0` (40 R74). -/
def byteOfSamples (bs : List Bit) : Byte := BitVec.ofNat 8 (bs.foldl (fun n b => 2 * n + b.toNat) 0)

/-! ## Event lists of the commands, without `Cmd` (95 Conventions; 40 R62 to R68; 41 R78, R84) -/

def writeBitEvents (p scl : PinId) (b : Bit) : List PinEvent :=
  [.lvl p b, .wait, .lvl scl true, .wait, .lvl scl false]

/-- `WB(p; v; s)`. -/
def writeEvents (p scl : PinId) (v : Byte) (s : Bit) : List PinEvent :=
  (msbFirst v).flatMap (writeBitEvents p scl)
    ++ [.dir p .input, .lvl scl true, .wait, .smp p s, .lvl scl false, .dir p .output]

def readBitEvents (p scl : PinId) (b : Bit) : List PinEvent :=
  [.lvl scl true, .wait, .smp p b, .lvl scl false, .wait]

/-- `RB(p; s7..s0; last)`. -/
def readEvents (p scl : PinId) (samples : List Bit) (last : Bit) : List PinEvent :=
  [.dir p .input] ++ samples.flatMap (readBitEvents p scl)
    ++ [.dir p .output, .lvl p last, .lvl scl true, .wait, .lvl scl false, .lvl p true]

/-- The events of START-PART on a channel below `TW_N`. -/
def startEvents (p scl : PinId) (abyte : Byte) (s : Bit) : List PinEvent :=
  [.bcast false, .lvl scl false] ++ writeEvents p scl abyte s

def restartEvents (p scl : PinId) (abyte : Byte) (s : Bit) : List PinEvent :=
  [.lvl scl true, .lvl p false, .lvl scl false] ++ writeEvents p scl abyte s

/-- The events of STOP-PART on a channel below `TW_N`. -/
def stopEvents (p scl : PinId) : List PinEvent :=
  [.lvl p false, .wait, .lvl scl true, .wait, .lvl p true, .bcast true, .wait]

/-- TW.INIT with `TW_N > 0`. -/
def initEvents (c : Config) (outer : Bit) : List PinEvent :=
  c.twSda.map (fun p => .dir p .output) ++ [.bcast true]
    ++ (if outer then [.dir c.twScl .output, .lvl c.twScl true, .wait] else [])

/-- SC.BEGIN. -/
def beginEvents (c : Config) : List PinEvent :=
  [.dir c.scIn .input, .pull c.scIn c.scPullup, .dir c.scOut .output, .dir c.scClk .output,
   .lvl c.scClk c.scCpol, .lvl c.scOut (!c.scCpha)]

/-- One bit of the serial-clock protocol by the table of 41 R84, `tx` the output's event and `rx` the sample's, if any. -/
def scBitEvents (c : Config) (tx rx : List PinEvent) : List PinEvent :=
  match c.scCpol, c.scCpha with
  | false, false => tx ++ [.lvl c.scClk true] ++ rx ++ [.lvl c.scClk false]
  | false, true => [.lvl c.scClk true] ++ tx ++ [.lvl c.scClk false] ++ rx
  | true, false => tx ++ [.lvl c.scClk false] ++ rx ++ [.lvl c.scClk true]
  | true, true => [.lvl c.scClk false] ++ tx ++ [.lvl c.scClk true] ++ rx

def sendEvents (c : Config) (v : Byte) : List PinEvent :=
  (msbFirst v).flatMap fun b => scBitEvents c [.lvl c.scOut b] []

def receiveEvents (c : Config) (samples : List Bit) : List PinEvent :=
  samples.flatMap fun s => scBitEvents c [] [.smp c.scIn s]

def transferEvents (c : Config) (v : Byte) (samples : List Bit) : List PinEvent :=
  (List.zip (msbFirst v) samples).flatMap fun bs => scBitEvents c [.lvl c.scOut bs.1] [.smp c.scIn bs.2]

/-! ## What the environment answers (20 R33) -/

/-- Every sample among the events `es`, performed from trace `t` on, is the environment's answer there. -/
def EnvAnswers (answers : List Bit) (t : List Event) : List PinEvent → Prop
  | [] => True
  | .smp p b :: es => b = envAnswer answers t p ∧ EnvAnswers answers.tail (t ++ [.pin (.smp p b)]) es
  | .dir p d :: es => EnvAnswers answers (t ++ [.pin (.dir p d)]) es
  | .lvl p b :: es => EnvAnswers answers (t ++ [.pin (.lvl p b)]) es
  | .pull p b :: es => EnvAnswers answers (t ++ [.pin (.pull p b)]) es
  | .bcast b :: es => EnvAnswers answers (t ++ [.pin (.bcast b)]) es
  | .wait :: es => EnvAnswers answers (t ++ [.pin .wait]) es

/-- The samples among events, in order, whatever the pin. -/
def samplesIn : List PinEvent → List Bit
  | [] => []
  | .smp _ b :: es => b :: samplesIn es
  | .dir _ _ :: es => samplesIn es
  | .lvl _ _ :: es => samplesIn es
  | .pull _ _ :: es => samplesIn es
  | .bcast _ :: es => samplesIn es
  | .wait :: es => samplesIn es

/-- Premise PULLUP-TW (20 R33) for the events of one command while no peer drives a line low: every sample of a
two-wire data line reads 1. -/
def PullupTw (c : Config) (es : List PinEvent) : Prop := ∀ p ∈ c.twSda, ∀ b, .smp p b ∈ es → b = true

/-- Premise PEER-ACK (20 R33) for the events of one command: the peer holds the data line `p` low in the 9th clock pulse,
which is where a write samples. -/
def PeerAck (p : PinId) (es : List PinEvent) : Prop := ∀ b, .smp p b ∈ es → b = false

/-! ## What a trace says of a pin (10 R17) -/

/-- The direction last set by a `Dir` event of pin `p`; UNK until the first. -/
def lastDir (p : PinId) (h : Held Dir) : List PinEvent → Held Dir
  | [] => h
  | .dir q d :: es => lastDir p (if q = p then .is d else h) es
  | .lvl _ _ :: es => lastDir p h es
  | .pull _ _ :: es => lastDir p h es
  | .bcast _ :: es => lastDir p h es
  | .wait :: es => lastDir p h es
  | .smp _ _ :: es => lastDir p h es

/-- The level last set by a `Lvl` event of pin `p`, or by a `Bcast` event if `p` is among the data pins `sda`. -/
def lastLvl (sda : List PinId) (p : PinId) (h : Held Bit) : List PinEvent → Held Bit
  | [] => h
  | .lvl q b :: es => lastLvl sda p (if q = p then .is b else h) es
  | .bcast b :: es => lastLvl sda p (if p ∈ sda then .is b else h) es
  | .dir _ _ :: es => lastLvl sda p h es
  | .pull _ _ :: es => lastLvl sda p h es
  | .wait :: es => lastLvl sda p h es
  | .smp _ _ :: es => lastLvl sda p h es

/-- The pull-up selection last set by a `Pull` event of pin `p`. -/
def lastPull (p : PinId) (h : Held Bit) : List PinEvent → Held Bit
  | [] => h
  | .pull q b :: es => lastPull p (if q = p then .is b else h) es
  | .dir _ _ :: es => lastPull p h es
  | .lvl _ _ :: es => lastPull p h es
  | .bcast _ :: es => lastPull p h es
  | .wait :: es => lastPull p h es
  | .smp _ _ :: es => lastPull p h es

/-- Every pin field is what the trace says: only the primitives write them (10 R17). -/
def PinsFollowTrace (s : State) : Prop :=
  ∀ p, s.dirOf p = lastDir p .unk (pinEvents s.trace)
    ∧ s.latOf p = lastLvl s.cfg.twSda p .unk (pinEvents s.trace)
    ∧ s.puOf p = lastPull p .unk (pinEvents s.trace)

/-- The words of the `Cmd` events, in order. -/
def commandsIn : List Event → List Word
  | [] => []
  | .cmd w :: t => w :: commandsIn t
  | .pin _ :: t => commandsIn t

/-! ## Observations of events -/

/-- The level of data pin `p` at each rising edge of the clock pin `clk`, given its latch before. -/
def dataAtRises (p clk : PinId) (h : Held Bit) : List PinEvent → List (Held Bit)
  | [] => []
  | .lvl q b :: es =>
    (if q = clk ∧ b = true then [h] else []) ++ dataAtRises p clk (if q = p then .is b else h) es
  | .dir _ _ :: es => dataAtRises p clk h es
  | .pull _ _ :: es => dataAtRises p clk h es
  | .bcast _ :: es => dataAtRises p clk h es
  | .wait :: es => dataAtRises p clk h es
  | .smp _ _ :: es => dataAtRises p clk h es

/-- The levels of pin `clk` after each of its `Lvl` events (41 R86). -/
def levelsOf (clk : PinId) : List PinEvent → List Bit
  | [] => []
  | .lvl q b :: es => (if q = clk then [b] else []) ++ levelsOf clk es
  | .dir _ _ :: es => levelsOf clk es
  | .pull _ _ :: es => levelsOf clk es
  | .bcast _ :: es => levelsOf clk es
  | .wait :: es => levelsOf clk es
  | .smp _ _ :: es => levelsOf clk es

/-- The level of pin `q` last set before each sample, in order. -/
def levelAtSamples (q : PinId) (h : Held Bit) : List PinEvent → List (Held Bit)
  | [] => []
  | .smp _ _ :: es => h :: levelAtSamples q h es
  | .lvl r b :: es => levelAtSamples q (if r = q then .is b else h) es
  | .dir _ _ :: es => levelAtSamples q h es
  | .pull _ _ :: es => levelAtSamples q h es
  | .bcast _ :: es => levelAtSamples q h es
  | .wait :: es => levelAtSamples q h es

/-- The number of `Wait` events (70 R121). -/
def waitsIn (es : List PinEvent) : Nat := es.count .wait

/-- A lower bound on the time events take, in microseconds: one `TW_DELAY_US` for each `Wait` (20 R36). -/
def leastDuration (c : Config) (es : List PinEvent) : Nat := waitsIn es * c.twDelayUs

/-- An event without the value a sample answered (40 R76, 41 R87). -/
def shape : PinEvent → PinEvent
  | .smp p _ => .smp p false
  | .dir p d => .dir p d
  | .lvl p b => .lvl p b
  | .pull p b => .pull p b
  | .bcast b => .bcast b
  | .wait => .wait

/-- The pin a `Dir`, `Lvl`, `Pull` or `Smp` event names. -/
def eventPin : PinEvent → Option PinId
  | .dir p _ => some p
  | .lvl p _ => some p
  | .pull p _ => some p
  | .smp p _ => some p
  | .bcast _ => none
  | .wait => none

def isBcast : PinEvent → Bool
  | .bcast _ => true
  | .dir _ _ => false
  | .lvl _ _ => false
  | .pull _ _ => false
  | .smp _ _ => false
  | .wait => false

/-! ## Commands -/

/-- A command of the two-wire engine. -/
def isTwoWire : Instr → Bool
  | .twInit _ => true
  | .twStart _ _ => true
  | .twRestart _ _ => true
  | .twStop _ => true
  | .twWrite _ _ => true
  | .twRead _ _ => true
  | .twWritebyte _ _ _ => true
  | .twReadbyte _ _ => true
  | .scBegin => false
  | .scSend _ => false
  | .scReceive => false
  | .scTransfer _ => false

/-- The default result of a two-wire command (40 R60). -/
def defaultResult : Instr → Result
  | .twInit _ => .none
  | .twStart _ _ => .ack false
  | .twRestart _ _ => .ack false
  | .twStop _ => .none
  | .twWrite _ _ => .ack false
  | .twRead _ _ => .byte 0x00#8
  | .twWritebyte _ _ _ => .ack false
  | .twReadbyte _ _ => .byte 0x00#8
  | .scBegin => .none
  | .scSend _ => .none
  | .scReceive => .none
  | .scTransfer _ => .none

/-- How many samples a command takes: one for each byte written, eight for each byte read. -/
def sampleCount (c : Config) : Instr → Nat
  | .twInit _ => 0
  | .twStart ch _ => if ch < c.twN then 1 else 0
  | .twRestart ch _ => if ch < c.twN then 1 else 0
  | .twStop _ => 0
  | .twWrite ch _ => if ch < c.twN then 1 else 0
  | .twRead ch _ => if ch < c.twN then 8 else 0
  | .twWritebyte ch _ _ => if ch < c.twN then 2 else 0
  | .twReadbyte ch _ => if ch < c.twN then 9 else 0
  | .scBegin => 0
  | .scSend _ => 0
  | .scReceive => 8
  | .scTransfer _ => 8

/-- The events of a two-wire command: `addressed p` on the data pin of a channel below `TW_N`, `terminal` when the channel
index is out of range, none when the chain is empty (40 R60). -/
def channelEvents (c : Config) (ch : Nat) (addressed : PinId → List PinEvent) (terminal : List PinEvent) :
    List PinEvent :=
  match channelPin c ch with
  | some p => addressed p
  | none => if c.twN = 0 then [] else terminal

/-- The pin events a command performs when its samples read `bs`, in order (40 R65 to R72, 41 R78 to R82). -/
def commandEvents (c : Config) (i : Instr) (bs : List Bit) : List PinEvent :=
  match i with
  | .twInit outer => if c.twN = 0 then [] else initEvents c outer
  | .twStart ch abyte => channelEvents c ch (fun p => startEvents p c.twScl abyte (bs.getD 0 false)) [.bcast false]
  | .twRestart ch abyte => channelEvents c ch (fun p => restartEvents p c.twScl abyte (bs.getD 0 false)) []
  | .twStop ch => channelEvents c ch (fun p => stopEvents p c.twScl) [.bcast true, .wait]
  | .twWrite ch v => channelEvents c ch (fun p => writeEvents p c.twScl v (bs.getD 0 false)) []
  | .twRead ch last => channelEvents c ch (fun p => readEvents p c.twScl bs last) []
  | .twWritebyte ch addr7 v =>
    channelEvents c ch (fun p => startEvents p c.twScl (addressByte addr7 false) (bs.getD 0 false)
      ++ writeEvents p c.twScl v (bs.getD 1 false) ++ stopEvents p c.twScl) [.bcast false, .bcast true, .wait]
  | .twReadbyte ch addr7 =>
    channelEvents c ch (fun p => startEvents p c.twScl (addressByte addr7 true) (bs.getD 0 false)
      ++ readEvents p c.twScl bs.tail true ++ stopEvents p c.twScl) [.bcast false, .bcast true, .wait]
  | .scBegin => beginEvents c
  | .scSend v => sendEvents c v
  | .scReceive => receiveEvents c bs
  | .scTransfer v => transferEvents c v bs

/-- The result a command writes when its samples read `bs` (10 R19). -/
def commandResult (c : Config) (i : Instr) (bs : List Bit) : Result :=
  match i with
  | .twInit _ => .none
  | .twStart ch _ => if ch < c.twN then .ack (!bs.getD 0 false) else .ack false
  | .twRestart ch _ => if ch < c.twN then .ack (!bs.getD 0 false) else .ack false
  | .twStop _ => .none
  | .twWrite ch _ => if ch < c.twN then .ack (!bs.getD 0 false) else .ack false
  | .twRead ch _ => if ch < c.twN then .byte (byteOfSamples bs) else .byte 0x00#8
  | .twWritebyte ch _ _ => if ch < c.twN then .ack (!bs.getD 0 false && !bs.getD 1 false) else .ack false
  | .twReadbyte ch _ => if ch < c.twN then .byte (byteOfSamples bs.tail) else .byte 0x00#8
  | .scBegin => .none
  | .scSend _ => .none
  | .scReceive => .byte (byteOfSamples bs)
  | .scTransfer _ => .byte (byteOfSamples bs)

/-- What no command changes: the configuration, `PROG`, `FLT` and `cp` (the step moves `cp`). -/
def SameControl (s t : State) : Prop := t.cfg = s.cfg ∧ t.prog = s.prog ∧ t.flt = s.flt ∧ t.cp = s.cp

/-- No pin field changes. -/
def SamePins (s t : State) : Prop :=
  ∀ q, t.dirOf q = s.dirOf q ∧ t.latOf q = s.latOf q ∧ t.puOf q = s.puOf q

/-- `t`'s trace is `s`'s trace and then the pin events `es`. -/
def Appended (s t : State) (es : List PinEvent) : Prop := t.trace = s.trace ++ es.map Event.pin

/-- The next step executes word `w`: the configuration is admitted, no fault is recorded, and `PROG[cp]` is `w`. -/
def Ready (s : State) (w : Word) : Prop := admitted s.cfg = true ∧ s.flt = .none ∧ s.prog[s.cp]? = some w

/-- Execute a list of decoded commands in order, as a caller issues them. -/
def execAll : List Instr → State → Host.Outcome State Fault Refusal
  | [], s => .next s
  | i :: is, s =>
    match exec i s with
    | .next t => execAll is t
    | .fault r => .fault r
    | .refused r => .refused r

/-! ## Idle bus and transaction discipline -/

/-- Every two-wire data pin and the clock pin are outputs. -/
def TwDriven (s : State) : Prop :=
  (∀ p ∈ s.cfg.twSda, s.dirOf p = .is .output) ∧ s.dirOf s.cfg.twScl = .is .output

/-- The bus is idle (40 R65): every data pin and the clock OUT, latched 1. -/
def BusIdle (s : State) : Prop :=
  TwDriven s ∧ (∀ p ∈ s.cfg.twSda, s.latOf p = .is true) ∧ s.latOf s.cfg.twScl = .is true

/-- Whether a two-wire transaction is open, and on which channel. -/
inductive Phase where
  | idle
  | active (ch : Nat)
  deriving DecidableEq, Repr

/-- The transaction discipline of 70 R111, which the controller does not check: the phase after a command, or none where
the command breaks it. A composite command is a whole transaction (40 R71, R72); serial-clock commands do not matter
(10 R29). How TW.INIT and the composites count is DEDUCED, safe: log 19. -/
def disciplineStep : Phase → Instr → Option Phase
  | .idle, .twInit _ => some .idle
  | .active _, .twInit _ => none
  | .idle, .twStart ch _ => some (.active ch)
  | .active _, .twStart _ _ => none
  | .idle, .twRestart _ _ => none
  | .active c, .twRestart ch _ => if ch = c then some (.active c) else none
  | .idle, .twStop _ => none
  | .active c, .twStop ch => if ch = c then some .idle else none
  | .idle, .twWrite _ _ => none
  | .active c, .twWrite ch _ => if ch = c then some (.active c) else none
  | .idle, .twRead _ _ => none
  | .active c, .twRead ch _ => if ch = c then some (.active c) else none
  | .idle, .twWritebyte _ _ _ => some .idle
  | .active _, .twWritebyte _ _ _ => none
  | .idle, .twReadbyte _ _ => some .idle
  | .active _, .twReadbyte _ _ => none
  | ph, .scBegin => some ph
  | ph, .scSend _ => some ph
  | ph, .scReceive => some ph
  | ph, .scTransfer _ => some ph

/-- The phase after a list of commands that keeps the discipline, or none. -/
def disciplined : Phase → List Instr → Option Phase
  | ph, [] => some ph
  | ph, i :: is =>
    match disciplineStep ph i with
    | some ph' => disciplined ph' is
    | none => none

/-- Every channel index a command carries is below `TW_N`. -/
def channelsInRange (c : Config) (is : List Instr) : Prop := ∀ i ∈ is, ∀ ch, i.channel? = some ch → ch < c.twN

/-! ## Ends of a run (10 R28, 70 R109) -/

def Final (s : State) : Prop := s.flt = .none ∧ s.cp = s.prog.length
def Faulted (s : State) : Prop := s.flt ≠ .none

/-! ## The machine's invariant -/

/-- The pins a pin file lists are bound. -/
def Bound {α : Type} (c : Config) (f : PinFile α) : Prop := ∀ e ∈ f, e.1 ∈ c.pins

/-- `FLT` and `cp` agree with `PROG` (60 R89): a recorded fault names the illegal word at `cp`. -/
def FaultFits (s : State) : Prop :=
  match s.flt with
  | .none => True
  | .illegalCommand w k => k = s.cp ∧ s.prog[s.cp]? = some w ∧ ∀ i, decode w ≠ .ok i

/-- The words recorded are those executed, in order, and the faulting one if there is one (20 R38). -/
def TraceFits (s : State) : Prop :=
  commandsIn s.trace =
    match s.flt with
    | .none => s.prog.take s.cp
    | .illegalCommand w _ => s.prog.take s.cp ++ [w]

/-- What holds between commands: the pin files are canonical and list only bound pins, `cp` does not pass the end of
`PROG` (10 R21), the fault register and the trace fit the program, no two-wire pin is left released (40 R62, R64), no
command drives `SC_IN`, and the serial clock rests at its idle level once set (41 R83). -/
structure Inv (s : State) : Prop where
  config : admitted s.cfg = true
  dirWf : pinFileWf s.dir
  latWf : pinFileWf s.lat
  puWf : pinFileWf s.pu
  dirBound : Bound s.cfg s.dir
  latBound : Bound s.cfg s.lat
  puBound : Bound s.cfg s.pu
  cpInRange : s.cp ≤ s.prog.length
  fault : FaultFits s
  commands : TraceFits s
  twDir : ∀ p ∈ s.cfg.twSda ++ [s.cfg.twScl], s.dirOf p ≠ .is .input
  scInDir : s.dirOf s.cfg.scIn ≠ .is .output
  scClkIdle : s.latOf s.cfg.scClk ≠ .is (!s.cfg.scCpol)

end Sys2Proof.Safety
end

