-- ==== Sys2Proof/Certificates/Slice0/Obligations.lean ====
section
/-! DEFINITION. The statements for the provers, one `def Obligations.<Name> : Prop` each; OBLIGATIONS.json lists them.
No statement rests on what a free value is: `EnvAnswers` says only that a sample is what the environment answers. -/

open Sys2Proof Sys2Proof.Machine Sys2Proof.Safety

/-! ## Encoding (spec/30_encoding.md) -/

/-- 30 R46, R47, R55: decoding the word of a well-formed instruction gives the instruction back, every operand kept. -/
def Obligations.DecodeOfEncodeGivesBack : Prop :=
  ∀ i : Instr, i.wellFormed = true → decode (encode i) = .ok i

/-- 30 R48, R55: a word that decodes is the word of the instruction it decodes to, which is well formed. -/
def Obligations.EncodeOfDecodeGivesBack : Prop :=
  ∀ (w : Word) (i : Instr), decode w = .ok i → encode i = w ∧ i.wellFormed = true

/-- 30 R49, R53: the match and mask table of R49 decides legality. A word decodes exactly if some row matches it, at
most one row does, and it is the row of the instruction decoded. -/
def Obligations.WordLegalIffOneRowMatches : Prop :=
  rows.map (fun r => (r.matchBits, r.mask)) =
      [(0x00000000#32, 0xFEFFFFFF#32), (0x10000000#32, 0xFF0000FF#32), (0x20000000#32, 0xFF0000FF#32),
       (0x30000000#32, 0xFF00FFFF#32), (0x40000000#32, 0xFF00FF00#32), (0x50000000#32, 0xFE00FFFF#32),
       (0x60000000#32, 0xFF008000#32), (0x70000000#32, 0xFF0080FF#32), (0x80000000#32, 0xFFFFFFFF#32),
       (0x90000000#32, 0xFFFFFF00#32), (0xA0000000#32, 0xFFFFFFFF#32), (0xB0000000#32, 0xFFFFFF00#32)]
    ∧ ∀ w : Word, ((∃ i, decode w = .ok i) ↔ ∃ r ∈ rows, w &&& r.mask = r.matchBits)
      ∧ (∀ r ∈ rows, ∀ q ∈ rows, w &&& r.mask = r.matchBits → w &&& q.mask = q.matchBits → r = q)
      ∧ (∀ i, decode w = .ok i → i.row ∈ rows ∧ w &&& i.row.mask = i.row.matchBits)

/-- 30 R50: a word whose `OP` is 0xC to 0xF is illegal; executing it raises `IllegalCommand`. -/
def Obligations.ReservedOpcodeRaises : Prop :=
  ∀ w : Word, 0xC ≤ w.toNat / 2 ^ 28 →
    (∀ i, decode w ≠ .ok i) ∧ ∀ s, Ready s w → ∃ t, step s = .next t ∧ t.flt = .illegalCommand w s.cp

/-- 30 R51: a word whose `OP` is that of a row, with a 1 in a bit the row masks other than `OP`, is illegal and raises
`IllegalCommand`; it is not executed as the operation its `OP` names, so `RES` and the pins are as before. -/
def Obligations.MustBeZeroBitRaises : Prop :=
  ∀ (w : Word) (r : Row) (k : Nat), r ∈ rows → w.toNat / 2 ^ 28 = r.matchBits.toNat / 2 ^ 28 → k < 28 →
    r.mask.getLsbD k = true → w.getLsbD k = true →
    (∀ i, decode w ≠ .ok i)
      ∧ ∀ s, Ready s w → ∃ t, step s = .next t ∧ t.flt = .illegalCommand w s.cp ∧ t.res = s.res ∧ SamePins s t

/-- 30 R57: the encoding examples, legal and illegal, in both directions. -/
def Obligations.EncodingExamplesDecode : Prop :=
  [Instr.twInit true, .twStart 0 0xA0#8, .twRestart 0 0xA1#8, .twStop 0, .twWrite 0 0xA5#8, .twRead 0 true, .twRead 1 false,
      .twWritebyte 0 0x50#7 0xA5#8, .twReadbyte 0 0x50#7, .scBegin, .scSend 0x5A#8, .scReceive,
      .scTransfer 0x5A#8].map encode =
    [0x01000000#32, 0x1000A000#32, 0x2000A100#32, 0x30000000#32, 0x400000A5#32, 0x51000000#32, 0x50010000#32,
      0x600050A5#32, 0x70005000#32, 0x80000000#32, 0x9000005A#32, 0xA0000000#32, 0xB000005A#32]
    ∧ decode 0x01000000#32 = .ok (.twInit true)
    ∧ decode 0x1000A000#32 = .ok (.twStart 0 0xA0#8)
    ∧ decode 0x2000A100#32 = .ok (.twRestart 0 0xA1#8)
    ∧ decode 0x30000000#32 = .ok (.twStop 0)
    ∧ decode 0x400000A5#32 = .ok (.twWrite 0 0xA5#8)
    ∧ decode 0x51000000#32 = .ok (.twRead 0 true)
    ∧ decode 0x50010000#32 = .ok (.twRead 1 false)
    ∧ decode 0x600050A5#32 = .ok (.twWritebyte 0 0x50#7 0xA5#8)
    ∧ decode 0x70005000#32 = .ok (.twReadbyte 0 0x50#7)
    ∧ decode 0x80000000#32 = .ok .scBegin
    ∧ decode 0x9000005A#32 = .ok (.scSend 0x5A#8)
    ∧ decode 0xA0000000#32 = .ok .scReceive
    ∧ decode 0xB000005A#32 = .ok (.scTransfer 0x5A#8)
    ∧ decode 0xC0000000#32 = .error .reservedOpcode
    ∧ decode 0x08000000#32 = .error .mustBeZero
    ∧ decode 0x30000001#32 = .error .mustBeZero
    ∧ decode 0x6000D0A5#32 = .error .mustBeZero

/-- 30 R56 with R55: each pseudo-instruction expands to one command, whose word is, as a number, the opcode, flag, channel
and address byte `2 * addr7 + rw` in their places. -/
def Obligations.PseudoInstructionWords : Prop :=
  ∀ (ch : Nat) (a : BitVec 7), ch < 256 →
    (encode (Pseudo.startw ch a).expand).toNat = 0x1 * 2 ^ 28 + ch * 2 ^ 16 + (2 * a.toNat) * 2 ^ 8
    ∧ (encode (Pseudo.startr ch a).expand).toNat = 0x1 * 2 ^ 28 + ch * 2 ^ 16 + (2 * a.toNat + 1) * 2 ^ 8
    ∧ (encode (Pseudo.restartw ch a).expand).toNat = 0x2 * 2 ^ 28 + ch * 2 ^ 16 + (2 * a.toNat) * 2 ^ 8
    ∧ (encode (Pseudo.restartr ch a).expand).toNat = 0x2 * 2 ^ 28 + ch * 2 ^ 16 + (2 * a.toNat + 1) * 2 ^ 8
    ∧ (encode (Pseudo.readack ch).expand).toNat = 0x5 * 2 ^ 28 + ch * 2 ^ 16
    ∧ (encode (Pseudo.readnak ch).expand).toNat = 0x5 * 2 ^ 28 + 2 ^ 24 + ch * 2 ^ 16

/-- 30 R54: a command line assembles exactly to the instruction whose operands it lists; an operand out of range, or a wrong
number of operands, never assembles, so nothing is truncated. -/
def Obligations.AssemblerKeepsOperands : Prop :=
  (∀ i : Instr, i.wellFormed = true → Assembly.command (Assembly.operandsOf i).1 (Assembly.operandsOf i).2 = .ok i)
    ∧ ∀ (i j : Instr) (ops : List Nat), Assembly.command (Assembly.operandsOf j).1 ops = .ok i →
        i.wellFormed = true ∧ Assembly.operandsOf i = ((Assembly.operandsOf j).1, ops)

/-! ## Steps, faults and runs (spec/10_state.md R21 to R28, spec/60_exceptions.md) -/

/-- 10 R21, R22: a step records `Cmd(w)`, runs the decoded instruction, and moves `cp` by one. -/
def Obligations.StepRunsTheDecodedInstruction : Prop :=
  ∀ (s : State) (w : Word) (i : Instr), Ready s w → decode w = .ok i →
    step s =
      match exec i { s with trace := s.trace ++ [.cmd w] } with
      | .next t => .next { t with cp := t.cp + 1 }
      | .fault r => .fault r
      | .refused r => .refused r

/-- 10 R21, R22, 60 R90, R91: a legal command always completes, whatever the lines do; `cp` moves by one and nothing else
moves it, no fault is raised, `PROG` and the configuration are unchanged, and the trace grows by `Cmd(w)` and then pin
events only. -/
def Obligations.LegalCommandStepCompletes : Prop :=
  ∀ (s : State) (w : Word) (i : Instr), Ready s w → decode w = .ok i →
    ∃ (t : State) (es : List PinEvent), step s = .next t ∧ t.cp = s.cp + 1 ∧ t.flt = .none ∧ t.prog = s.prog
      ∧ t.cfg = s.cfg ∧ t.trace = s.trace ++ Event.cmd w :: es.map Event.pin

/-- 60 R89: an illegal word at `cp` is recorded in `FLT` with its index; only `Cmd(w)` is appended, and `cp`, `RES` and the
pins are unchanged; the state is then faulted, never final, and nothing is executed from it. -/
def Obligations.IllegalWordIsRecordedAndStops : Prop :=
  ∀ (s : State) (w : Word), Ready s w → (∀ i, decode w ≠ .ok i) →
    step s = .next { s with flt := .illegalCommand w s.cp, trace := s.trace ++ [.cmd w] }
      ∧ ∀ t, step s = .next t → Faulted t ∧ ¬ Final t ∧ ∀ u, step t ≠ .next u

/-- 10 R23: `FLT` is NONE at reset; it is written only when an illegal word is raised and never cleared by a command: a step
that goes on starts from `FLT = NONE` and either leaves it so or records the word at `cp`. -/
def Obligations.FaultRegisterWrittenOnlyByRaise : Prop :=
  (∀ (c : Config) (prog : List Word) (answers : List Bit), (State.resetWith c prog answers).flt = .none)
    ∧ ∀ s t : State, step s = .next t →
      s.flt = .none ∧
        (t.flt = .none ∧ (∃ w i, s.prog[s.cp]? = some w ∧ decode w = .ok i)
          ∨ ∃ w, s.prog[s.cp]? = some w ∧ (∀ i, decode w ≠ .ok i) ∧ t.flt = .illegalCommand w s.cp)

/-- 10 R28: under an admitted configuration and with `cp` not past the end of `PROG`, exactly the final states and the faulted
states lack a step. The outcomes they answer are the model's choice: logs 6 and 7. -/
def Obligations.OnlyFinalAndFaultedStatesLackAStep : Prop :=
  ∀ s : State, admitted s.cfg = true → s.cp ≤ s.prog.length →
    (Final s → step s = .refused .programEnded)
    ∧ (∀ w k, s.flt = .illegalCommand w k → step s = .fault (.illegalCommand w k))
    ∧ ((∃ t, step s = .next t) ↔ ¬ Final s ∧ ¬ Faulted s)

/-- 00 R7: a configuration that names one pin twice is refused as a whole: no state that holds it has a step (log 8). -/
def Obligations.RepeatedPinIsRefused : Prop :=
  ∀ s : State, ¬ s.cfg.pins.Nodup → step s = .refused .configurationRefused

/-- 60 R102: every run of the finite `PROG` ends, final or faulted, after at most as many steps as commands are left. -/
def Obligations.RunEndsFinalOrFaulted : Prop :=
  ∀ s : State, admitted s.cfg = true → s.flt = .none → s.cp ≤ s.prog.length →
    ∃ k t, k ≤ s.prog.length - s.cp ∧ Host.Core.run Sys2Proof.core k s = .next t ∧ (Final t ∨ Faulted t)
      ∧ s.cp ≤ t.cp ∧ t.prog = s.prog ∧ t.cfg = s.cfg

/-- 70 R104: what reset leaves, for every configuration and program: every pin UNK, no line driven, `RES` and `FLT` NONE, `cp`
0, the trace empty. -/
def Obligations.ResetLeaves : Prop :=
  ∀ (c : Config) (prog : List Word) (answers : List Bit),
    let s := State.resetWith c prog answers
    (∀ p, s.dirOf p = .unk ∧ s.latOf p = .unk ∧ s.puOf p = .unk ∧ line s p = .environment)
      ∧ s.res = .none ∧ s.flt = .none ∧ s.cp = 0 ∧ s.trace = [] ∧ s.cfg = c ∧ s.prog = prog

/-- The invariant holds at reset, for every admitted configuration and program, and of `State.reset` itself (whose
configuration is the model's choice: log 2); so does the agreement of the pins with the trace. -/
def Obligations.InvariantHoldsAtReset : Prop :=
  (∀ (c : Config) (prog : List Word) (answers : List Bit), admitted c = true →
      Inv (State.resetWith c prog answers) ∧ PinsFollowTrace (State.resetWith c prog answers))
    ∧ Inv State.reset ∧ PinsFollowTrace State.reset

/-- Every step keeps the machine's invariant: canonical pin files over bound pins, `cp` within `PROG`, `FLT` and the recorded
commands in agreement with `PROG` (20 R38, 60 R89), no two-wire pin left released (40 R62, R64), `SC_IN` never driven
(20 R33), the serial clock at its idle level between commands (41 R83). -/
def Obligations.StepKeepsInvariant : Prop :=
  ∀ s t : State, Inv s → step s = .next t → Inv t

/-- 10 R17: `DIR`, `LAT` and `PU` of every pin are always what the trace's events last set them to, UNK until the first. -/
def Obligations.StepKeepsPinsFollowTrace : Prop :=
  ∀ s t : State, PinsFollowTrace s → step s = .next t → PinsFollowTrace t

/-! ## Pin primitives (spec/20_memory.md) -/

/-- 20 R30, R31, R34, R35, R36: what each primitive sets, the one event it appends, and that it changes nothing else; with
the line of 20 R32 at once at the new level for an output pin and unaffected otherwise. -/
def Obligations.PinPrimitivesSetOneThing : Prop :=
  ∀ (s : State) (p : PinId) (d : Dir) (b : Bit),
    (let t := pinSetDir p d s
     (∀ q, t.dirOf q = if q = p then .is d else s.dirOf q)
       ∧ t = { s with dir := t.dir, trace := s.trace ++ [.pin (.dir p d)] })
    ∧ (let t := pinSet p b s
       (∀ q, t.latOf q = if q = p then .is b else s.latOf q)
         ∧ line t p = (if s.dirOf p = .is .output then .driven b else .environment)
         ∧ (∀ q, q ≠ p → line t q = line s q)
         ∧ t = { s with lat := t.lat, trace := s.trace ++ [.pin (.lvl p b)] })
    ∧ (let t := pinPull p b s
       (∀ q, t.puOf q = if q = p then .is b else s.puOf q)
         ∧ t = { s with pu := t.pu, trace := s.trace ++ [.pin (.pull p b)] })
    ∧ (let t := bcastData b s
       (∀ q, t.latOf q = if q ∈ s.cfg.twSda then .is b else s.latOf q)
         ∧ (s.cfg.twN = 0 → t.lat = s.lat)
         ∧ t = { s with lat := t.lat, trace := s.trace ++ [.pin (.bcast b)] })
    ∧ delay s = { s with trace := s.trace ++ [.pin .wait] }

/-- 20 R33 and R32: a sample of a pin driven at a known level reads the latch; every other sample is the environment's answer,
which with no answer scripted is `ENV(Tpins, p)`; either way one `Smp` event is appended and no pin changes. (That a scripted
answer is used up is the model's way of holding the environment: log 4.) -/
def Obligations.SampleReadsLatchOrEnvironment : Prop :=
  ∀ (s : State) (p : PinId),
    (∀ b, s.dirOf p = .is .output → s.latOf p = .is b →
      pinGet p s = (b, { s with trace := s.trace ++ [.pin (.smp p b)] }))
    ∧ ((∀ b, ¬ (s.dirOf p = .is .output ∧ s.latOf p = .is b)) →
        let b := envAnswer s.answers s.trace p
        pinGet p s = (b, { s with answers := s.answers.tail, trace := s.trace ++ [.pin (.smp p b)] })
          ∧ (s.answers = [] → b = Config.env (pinEvents s.trace) p))

/-! ## Two-wire commands (spec/40_twowire.md) -/

/-- 40 R65: TW.INIT on a chain that is not empty, for both values of `outer`. -/
def Obligations.TwInitResult : Prop :=
  ∀ (s : State) (outer : Bit), admitted s.cfg = true → 0 < s.cfg.twN →
    ∃ t : State, exec (.twInit outer) s = .next t
      ∧ Appended s t (s.cfg.twSda.map (fun p => PinEvent.dir p .output) ++ [PinEvent.bcast true]
          ++ if outer then [PinEvent.dir s.cfg.twScl .output, .lvl s.cfg.twScl true, .wait] else [])
      ∧ t.res = .none
      ∧ (∀ q, t.dirOf q =
          if q ∈ s.cfg.twSda ∨ (outer = true ∧ q = s.cfg.twScl) then .is .output else s.dirOf q)
      ∧ (∀ q, t.latOf q = if q ∈ s.cfg.twSda ∨ (outer = true ∧ q = s.cfg.twScl) then .is true else s.latOf q)
      ∧ (∀ q, t.puOf q = s.puOf q) ∧ t.answers = s.answers ∧ SameControl s t
      ∧ (outer = true → BusIdle t)

/-- 40 R66: TW.START on a channel below `TW_N`: the broadcast low, the clock low, the address byte; every other data pin is
left latched low. -/
def Obligations.TwStartResult : Prop :=
  ∀ (s : State) (ch : Nat) (abyte : Byte) (p : PinId), admitted s.cfg = true → s.cfg.twSda[ch]? = some p →
    ∃ (a : Bit) (t : State), exec (.twStart ch abyte) s = .next t
      ∧ Appended s t ([PinEvent.bcast false, .lvl s.cfg.twScl false] ++ writeEvents p s.cfg.twScl abyte a)
      ∧ EnvAnswers s.answers s.trace ([PinEvent.bcast false, .lvl s.cfg.twScl false] ++ writeEvents p s.cfg.twScl abyte a)
      ∧ t.answers = s.answers.tail ∧ t.res = .ack (!a)
      ∧ (∀ q, t.dirOf q = if q = p then .is .output else s.dirOf q)
      ∧ (∀ q, t.latOf q =
          if q = p then .is (abyte.getLsbD 0)
          else if q ∈ s.cfg.twSda ∨ q = s.cfg.twScl then .is false else s.latOf q)
      ∧ (∀ q, t.puOf q = s.puOf q) ∧ SameControl s t

/-- 40 R67: TW.RESTART on a channel below `TW_N`: clock high, data low without being raised first, clock low, the address
byte; no broadcast, other data pins unchanged. -/
def Obligations.TwRestartResult : Prop :=
  ∀ (s : State) (ch : Nat) (abyte : Byte) (p : PinId), admitted s.cfg = true → s.cfg.twSda[ch]? = some p →
    ∃ (a : Bit) (t : State), exec (.twRestart ch abyte) s = .next t
      ∧ Appended s t
          ([PinEvent.lvl s.cfg.twScl true, .lvl p false, .lvl s.cfg.twScl false] ++ writeEvents p s.cfg.twScl abyte a)
      ∧ EnvAnswers s.answers s.trace
          ([PinEvent.lvl s.cfg.twScl true, .lvl p false, .lvl s.cfg.twScl false] ++ writeEvents p s.cfg.twScl abyte a)
      ∧ t.answers = s.answers.tail ∧ t.res = .ack (!a)
      ∧ (∀ q, t.dirOf q = if q = p then .is .output else s.dirOf q)
      ∧ (∀ q, t.latOf q =
          if q = p then .is (abyte.getLsbD 0) else if q = s.cfg.twScl then .is false else s.latOf q)
      ∧ (∀ q, t.puOf q = s.puOf q) ∧ SameControl s t

/-- 40 R68: TW.STOP on a channel below `TW_N`; if the two-wire pins are outputs the bus is then idle. -/
def Obligations.TwStopResult : Prop :=
  ∀ (s : State) (ch : Nat) (p : PinId), admitted s.cfg = true → s.cfg.twSda[ch]? = some p →
    ∃ t : State, exec (.twStop ch) s = .next t
      ∧ Appended s t [PinEvent.lvl p false, .wait, .lvl s.cfg.twScl true, .wait, .lvl p true, .bcast true, .wait]
      ∧ t.res = .none
      ∧ (∀ q, t.dirOf q = s.dirOf q)
      ∧ (∀ q, t.latOf q = if q ∈ s.cfg.twSda ∨ q = s.cfg.twScl then .is true else s.latOf q)
      ∧ (∀ q, t.puOf q = s.puOf q) ∧ t.answers = s.answers ∧ SameControl s t
      ∧ (TwDriven s → BusIdle t)

/-- 40 R69 and R62: TW.WRITE on a channel below `TW_N`: the 46 events of the byte write, the acknowledgment from the one
sample, and the end state. -/
def Obligations.TwWriteResult : Prop :=
  ∀ (s : State) (ch : Nat) (v : Byte) (p : PinId), admitted s.cfg = true → s.cfg.twSda[ch]? = some p →
    ∃ (a : Bit) (t : State), exec (.twWrite ch v) s = .next t
      ∧ Appended s t
          ((msbFirst v).flatMap (fun b => [PinEvent.lvl p b, .wait, .lvl s.cfg.twScl true, .wait, .lvl s.cfg.twScl false])
            ++ [PinEvent.dir p .input, .lvl s.cfg.twScl true, .wait, .smp p a, .lvl s.cfg.twScl false, .dir p .output])
      ∧ EnvAnswers s.answers s.trace (writeEvents p s.cfg.twScl v a)
      ∧ t.answers = s.answers.tail ∧ t.res = .ack (!a)
      ∧ (∀ q, t.dirOf q = if q = p then .is .output else s.dirOf q)
      ∧ (∀ q, t.latOf q = if q = p then .is (v.getLsbD 0) else if q = s.cfg.twScl then .is false else s.latOf q)
      ∧ (∀ q, t.puOf q = s.puOf q) ∧ SameControl s t

/-- 40 R70, R64 and R74: TW.READ on a channel below `TW_N`: the 47 events of the byte read, the byte of its eight samples,
the controller's ACK or NAK, and the end state. -/
def Obligations.TwReadResult : Prop :=
  ∀ (s : State) (ch : Nat) (last : Bit) (p : PinId), admitted s.cfg = true → s.cfg.twSda[ch]? = some p →
    ∃ (bs : List Bit) (t : State), bs.length = 8 ∧ exec (.twRead ch last) s = .next t
      ∧ Appended s t
          ([PinEvent.dir p .input]
            ++ bs.flatMap (fun b => [PinEvent.lvl s.cfg.twScl true, .wait, .smp p b, .lvl s.cfg.twScl false, .wait])
            ++ [PinEvent.dir p .output, .lvl p last, .lvl s.cfg.twScl true, .wait, .lvl s.cfg.twScl false, .lvl p true])
      ∧ EnvAnswers s.answers s.trace (readEvents p s.cfg.twScl bs last)
      ∧ t.answers = s.answers.drop 8 ∧ t.res = .byte (byteOfSamples bs)
      ∧ (∀ q, t.dirOf q = if q = p then .is .output else s.dirOf q)
      ∧ (∀ q, t.latOf q = if q = p then .is true else if q = s.cfg.twScl then .is false else s.latOf q)
      ∧ (∀ q, t.puOf q = s.puOf q) ∧ SameControl s t

/-- 40 R71: TW.WRITEBYTE on a channel below `TW_N`: start with the write address, the data byte whatever the address
acknowledgment was, stop; ACK only when both bytes were acknowledged. -/
def Obligations.TwWritebyteResult : Prop :=
  ∀ (s : State) (ch : Nat) (addr7 : BitVec 7) (v : Byte) (p : PinId), admitted s.cfg = true →
    s.cfg.twSda[ch]? = some p →
    ∃ (a1 a2 : Bit) (t : State), exec (.twWritebyte ch addr7 v) s = .next t
      ∧ (let es : List PinEvent :=
            startEvents p s.cfg.twScl (addr7.setWidth 8 <<< 1) a1 ++ writeEvents p s.cfg.twScl v a2
            ++ stopEvents p s.cfg.twScl
         Appended s t es ∧ EnvAnswers s.answers s.trace es)
      ∧ t.answers = s.answers.drop 2 ∧ t.res = .ack (!a1 && !a2)
      ∧ (∀ q, t.dirOf q = if q = p then .is .output else s.dirOf q)
      ∧ (∀ q, t.latOf q = if q ∈ s.cfg.twSda ∨ q = s.cfg.twScl then .is true else s.latOf q)
      ∧ (∀ q, t.puOf q = s.puOf q) ∧ SameControl s t

/-- 40 R72: TW.READBYTE on a channel below `TW_N`: start with the read address, one byte read with NAK, stop; the address
acknowledgment is not reported. -/
def Obligations.TwReadbyteResult : Prop :=
  ∀ (s : State) (ch : Nat) (addr7 : BitVec 7) (p : PinId), admitted s.cfg = true → s.cfg.twSda[ch]? = some p →
    ∃ (a1 : Bit) (bs : List Bit) (t : State), bs.length = 8 ∧ exec (.twReadbyte ch addr7) s = .next t
      ∧ (let es : List PinEvent :=
            startEvents p s.cfg.twScl (addr7.setWidth 8 <<< 1 ||| 1#8) a1 ++ readEvents p s.cfg.twScl bs true
            ++ stopEvents p s.cfg.twScl
         Appended s t es ∧ EnvAnswers s.answers s.trace es)
      ∧ t.answers = s.answers.drop 9 ∧ t.res = .byte (byteOfSamples bs)
      ∧ (∀ q, t.dirOf q = if q = p then .is .output else s.dirOf q)
      ∧ (∀ q, t.latOf q = if q ∈ s.cfg.twSda ∨ q = s.cfg.twScl then .is true else s.latOf q)
      ∧ (∀ q, t.puOf q = s.puOf q) ∧ SameControl s t

/-- 40 R60: the terminal case. (a) On an empty chain every two-wire command only writes its default result. (b) With a channel
index out of range TW.RESTART, TW.WRITE and TW.READ do the same, and TW.START, TW.STOP and the composites perform
their outermost part only. -/
def Obligations.TerminalCaseDefaults : Prop :=
  (∀ (i : Instr) (s : State), s.cfg.twN = 0 → isTwoWire i = true →
      exec i s = .next { s with res := defaultResult i })
    ∧ ∀ (s : State) (ch : Nat) (abyte v : Byte) (addr7 : BitVec 7) (last : Bit), 0 < s.cfg.twN → s.cfg.twN ≤ ch →
      exec (.twRestart ch abyte) s = .next { s with res := .ack false }
      ∧ exec (.twWrite ch v) s = .next { s with res := .ack false }
      ∧ exec (.twRead ch last) s = .next { s with res := .byte 0x00#8 }
      ∧ ∀ i, i = .twStart ch abyte ∨ i = .twStop ch ∨ i = .twWritebyte ch addr7 v ∨ i = .twReadbyte ch addr7 →
        ∃ t, exec i s = .next t ∧ t.res = defaultResult i
          ∧ Appended s t
              (if i = .twStart ch abyte then [.bcast false]
               else if i = .twStop ch then [.bcast true, .wait] else [.bcast false, .bcast true, .wait])
          ∧ (∀ q, t.latOf q =
              if q ∈ s.cfg.twSda then .is (decide (i ≠ .twStart ch abyte)) else s.latOf q)
          ∧ (∀ q, t.dirOf q = s.dirOf q ∧ t.puOf q = s.puOf q) ∧ t.answers = s.answers ∧ SameControl s t

/-- 40 R63: at each of the first eight rising edges of the clock after TW.WRITE starts, the addressed data pin is latched to
`v[7]`, ..., `v[0]` in that order; TW.WRITE takes one sample and acknowledges exactly if it is 0. -/
def Obligations.WriteShiftsOutMsbFirst : Prop :=
  ∀ (s : State) (ch : Nat) (v : Byte) (p : PinId), admitted s.cfg = true → s.cfg.twSda[ch]? = some p →
    ∃ t es a, exec (.twWrite ch v) s = .next t ∧ Appended s t es
      ∧ (dataAtRises p s.cfg.twScl (s.latOf p) es).take 8 = (msbFirst v).map Held.is
      ∧ (dataAtRises p s.cfg.twScl (s.latOf p) es).length = 9
      ∧ samplesIn es = [a] ∧ (t.res = .ack true ↔ a = false) ∧ (t.res = .ack false ↔ a = true)

/-- 40 R74 and 95 S4: a peer that acknowledges, and on the read presents the bits it saw on the write, returns the byte
written: TW.WRITEBYTE acknowledges and TW.READBYTE then gives `v`. -/
def Obligations.WriteThenEchoReturnsTheByte : Prop :=
  ∀ (s : State) (ch : Nat) (addr7 : BitVec 7) (v : Byte) (rest : List Bit), admitted s.cfg = true → ch < s.cfg.twN →
    s.answers = [false, false, false] ++ msbFirst v ++ rest →
    ∃ t u, exec (.twWritebyte ch addr7 v) s = .next t ∧ t.res = .ack true
      ∧ exec (.twReadbyte ch addr7) t = .next u ∧ u.res = .byte v ∧ u.answers = rest

/-- 60 R91, 95 S9: under PULLUP-TW with no peer a write is not acknowledged and a read gives 0xFF; with the line held low
a write is acknowledged and a read gives 0x00. None of it is a fault. -/
def Obligations.SilentPeerAndStuckLine : Prop :=
  ∀ (s : State) (ch : Nat) (v : Byte) (last : Bit) (p : PinId), admitted s.cfg = true → s.cfg.twSda[ch]? = some p →
    (∃ t es, exec (.twWrite ch v) s = .next t ∧ Appended s t es
      ∧ (PullupTw s.cfg es → t.res = .ack false) ∧ (PeerAck p es → t.res = .ack true))
    ∧ ∃ t es, exec (.twRead ch last) s = .next t ∧ Appended s t es
      ∧ (PullupTw s.cfg es → t.res = .byte 0xFF#8) ∧ ((∀ b, .smp p b ∈ es → b = false) → t.res = .byte 0x00#8)

/-- 40 R75: in TW.RESTART, TW.WRITE and TW.READ every event on a data pin names the addressed channel's; broadcasts occur only
in TW.INIT, TW.START, TW.STOP and the composites. -/
def Obligations.ChannelsAreIndependent : Prop :=
  ∀ (i : Instr) (s : State), admitted s.cfg = true → ∃ t es, exec i s = .next t ∧ Appended s t es
    ∧ (∀ (ch : Nat) (abyte v : Byte) (last : Bit),
        i = .twRestart ch abyte ∨ i = .twWrite ch v ∨ i = .twRead ch last →
        ∀ e ∈ es, ∀ q ∈ s.cfg.twSda, eventPin e = some q → s.cfg.twSda[ch]? = some q)
    ∧ ((∃ b, PinEvent.bcast b ∈ es) →
        (∃ outer, i = .twInit outer) ∨ (∃ ch abyte, i = .twStart ch abyte) ∨ (∃ ch, i = .twStop ch)
          ∨ (∃ ch addr7 v, i = .twWritebyte ch addr7 v) ∨ (∃ ch addr7, i = .twReadbyte ch addr7))

/-- 70 R121: the number of `Wait` events of each command, with `TW_N > 0`, and none with `TW_N = 0` or for the
serial-clock engine. -/
def Obligations.WaitCounts : Prop :=
  ∀ (i : Instr) (s : State), ∃ t es, exec i s = .next t ∧ Appended s t es
    ∧ waitsIn es =
      match i with
      | .twInit outer => if s.cfg.twN = 0 then 0 else if outer then 1 else 0
      | .twStart ch _ => if ch < s.cfg.twN then 17 else 0
      | .twRestart ch _ => if ch < s.cfg.twN then 17 else 0
      | .twStop ch => if s.cfg.twN = 0 then 0 else if ch < s.cfg.twN then 3 else 1
      | .twWrite ch _ => if ch < s.cfg.twN then 17 else 0
      | .twRead ch _ => if ch < s.cfg.twN then 17 else 0
      | .twWritebyte ch _ _ => if s.cfg.twN = 0 then 0 else if ch < s.cfg.twN then 37 else 1
      | .twReadbyte ch _ => if s.cfg.twN = 0 then 0 else if ch < s.cfg.twN then 37 else 1
      | .scBegin => 0
      | .scSend _ => 0
      | .scReceive => 0
      | .scTransfer _ => 0

/-- 40 R76 and 41 R78 to R82: the exact number of pin events of each command on a channel below `TW_N`. (R76 calls
TW.READBYTE the longest; TW.INIT's count grows with `TW_N`: log 14.) -/
def Obligations.EventCounts : Prop :=
  ∀ (i : Instr) (s : State), (∀ ch, i.channel? = some ch → ch < s.cfg.twN) →
    ∃ t es, exec i s = .next t ∧ Appended s t es ∧ es.length =
      match i with
      | .twInit outer => if s.cfg.twN = 0 then 0 else s.cfg.twN + 1 + (if outer then 3 else 0)
      | .twStart _ _ => 48
      | .twRestart _ _ => 49
      | .twStop _ => 7
      | .twWrite _ _ => 46
      | .twRead _ _ => 47
      | .twWritebyte _ _ _ => 101
      | .twReadbyte _ _ => 102
      | .scBegin => 6
      | .scSend _ => 24
      | .scReceive => 24
      | .scTransfer _ => 32

/-- 40 R76, 41 R87: a command's event kinds, pins and driven levels do not depend on what any sample reads, nor on the state of
the pins: two states with one configuration append lists that differ at most in the sampled values. -/
def Obligations.EventShapeIgnoresSamples : Prop :=
  ∀ (i : Instr) (s s' : State), s.cfg = s'.cfg →
    ∃ t t' es es', exec i s = .next t ∧ exec i s' = .next t' ∧ Appended s t es ∧ Appended s' t' es'
      ∧ es.map shape = es'.map shape

/-- 70 R112, 10 R25: after TW.START on one channel every other data pin is latched low, and TW.RESTART, TW.WRITE and TW.READ on
the addressed channel leave it so. -/
def Obligations.OtherChannelsHeldLow : Prop :=
  ∀ (s : State) (ch c : Nat) (abyte v : Byte) (last : Bit) (q : PinId), admitted s.cfg = true →
    ch < s.cfg.twN → c ≠ ch → s.cfg.twSda[c]? = some q →
    (∃ t, exec (.twStart ch abyte) s = .next t ∧ t.latOf q = .is false)
    ∧ ∀ i, i = .twRestart ch abyte ∨ i = .twWrite ch v ∨ i = .twRead ch last →
      ∃ t, exec i s = .next t ∧ t.latOf q = s.latOf q ∧ t.dirOf q = s.dirOf q

/-- 70 R113, R118: a TW.RESTART on the addressed channel raises the clock while its data pin is still latched to the last bit
sent: bit 0 of the byte after TW.START, TW.RESTART or TW.WRITE, and 1 after TW.READ. -/
def Obligations.RestartSeesTheLastBit : Prop :=
  ∀ (s : State) (ch : Nat) (v abyte : Byte) (last : Bit) (p : PinId), admitted s.cfg = true →
    s.cfg.twSda[ch]? = some p →
    ∀ i, i = .twStart ch v ∨ i = .twRestart ch v ∨ i = .twWrite ch v ∨ i = .twRead ch last →
      ∃ t u es, exec i s = .next t ∧ exec (.twRestart ch abyte) t = .next u ∧ Appended t u es
        ∧ (dataAtRises p s.cfg.twScl (t.latOf p) es).head? =
            some (.is (if i = .twRead ch last then true else v.getLsbD 0))

/-- 20 R42, 40 R65, 41 R78: TW.INIT and SC.BEGIN leave the same pin state when repeated, but append their events each time. -/
def Obligations.RepeatedSetupKeepsPins : Prop :=
  ∀ (s : State) (i : Instr), (∃ outer, i = .twInit outer) ∨ i = .scBegin →
    ∃ t u es, exec i s = .next t ∧ exec i t = .next u ∧ Appended s t es ∧ Appended t u es ∧ SamePins t u

/-- 70 R111, 40 R65, R68, 10 R29: from an idle bus, any list of commands that keeps the transaction discipline and ends outside a
transaction, its channels below `TW_N`, completes and leaves the bus idle, whatever the peers answer and whatever
serial-clock commands stand between. How TW.INIT and the composites count in the discipline is the model's reading of
R111 (`disciplineStep`, DEDUCED: log 19). -/
def Obligations.DisciplinedCommandsLeaveBusIdle : Prop :=
  ∀ (is : List Instr) (s : State), admitted s.cfg = true → BusIdle s → channelsInRange s.cfg is →
    disciplined .idle is = some .idle → ∃ t, execAll is s = .next t ∧ BusIdle t ∧ t.cfg = s.cfg

/-! ## Serial-clock commands (spec/41_serialclock.md) -/

/-- 41 R78: SC.BEGIN. -/
def Obligations.ScBeginResult : Prop :=
  ∀ s : State, admitted s.cfg = true →
    ∃ t, exec .scBegin s = .next t
      ∧ Appended s t
          [.dir s.cfg.scIn .input, .pull s.cfg.scIn s.cfg.scPullup, .dir s.cfg.scOut .output, .dir s.cfg.scClk .output,
           .lvl s.cfg.scClk s.cfg.scCpol, .lvl s.cfg.scOut (!s.cfg.scCpha)]
      ∧ t.res = .none
      ∧ (∀ q, t.dirOf q =
          if q = s.cfg.scIn then .is .input
          else if q = s.cfg.scOut ∨ q = s.cfg.scClk then .is .output else s.dirOf q)
      ∧ (∀ q, t.latOf q =
          if q = s.cfg.scClk then .is s.cfg.scCpol
          else if q = s.cfg.scOut then .is (!s.cfg.scCpha) else s.latOf q)
      ∧ (∀ q, t.puOf q = if q = s.cfg.scIn then .is s.cfg.scPullup else s.puOf q)
      ∧ t.answers = s.answers ∧ SameControl s t

/-- 41 R80: SC.SEND: eight bits driven, none sampled. -/
def Obligations.ScSendResult : Prop :=
  ∀ (s : State) (v : Byte), admitted s.cfg = true →
    ∃ t, exec (.scSend v) s = .next t
      ∧ Appended s t ((msbFirst v).flatMap fun b => scBitEvents s.cfg [.lvl s.cfg.scOut b] [])
      ∧ t.res = .none
      ∧ (∀ q, t.latOf q =
          if q = s.cfg.scClk then .is s.cfg.scCpol
          else if q = s.cfg.scOut then .is (v.getLsbD 0) else s.latOf q)
      ∧ (∀ q, t.dirOf q = s.dirOf q ∧ t.puOf q = s.puOf q) ∧ t.answers = s.answers ∧ SameControl s t

/-- 41 R81: SC.RECEIVE: eight samples, the output untouched. The environment answers them, unless the controller drives `SC_IN`
at a known level, in which case 20 R33 gives that level (no command brings that about). -/
def Obligations.ScReceiveResult : Prop :=
  ∀ s : State, admitted s.cfg = true →
    ∃ bs t, bs.length = 8 ∧ exec .scReceive s = .next t
      ∧ Appended s t (bs.flatMap fun b => scBitEvents s.cfg [] [.smp s.cfg.scIn b])
      ∧ t.res = .byte (byteOfSamples bs)
      ∧ ((∀ a, line s s.cfg.scIn ≠ .driven a) →
          EnvAnswers s.answers s.trace (receiveEvents s.cfg bs) ∧ t.answers = s.answers.drop 8)
      ∧ (∀ a, line s s.cfg.scIn = .driven a → bs = List.replicate 8 a ∧ t.answers = s.answers)
      ∧ (∀ q, t.latOf q = if q = s.cfg.scClk then .is s.cfg.scCpol else s.latOf q)
      ∧ (∀ q, t.dirOf q = s.dirOf q ∧ t.puOf q = s.puOf q) ∧ SameControl s t

/-- 41 R82: SC.TRANSFER: eight bits driven and eight sampled in the same clock pulses; sampling as for SC.RECEIVE. -/
def Obligations.ScTransferResult : Prop :=
  ∀ (s : State) (v : Byte), admitted s.cfg = true →
    ∃ bs t, bs.length = 8 ∧ exec (.scTransfer v) s = .next t
      ∧ Appended s t ((List.zip (msbFirst v) bs).flatMap fun x =>
          scBitEvents s.cfg [.lvl s.cfg.scOut x.1] [.smp s.cfg.scIn x.2])
      ∧ t.res = .byte (byteOfSamples bs)
      ∧ ((∀ a, line s s.cfg.scIn ≠ .driven a) →
          EnvAnswers s.answers s.trace (transferEvents s.cfg v bs) ∧ t.answers = s.answers.drop 8)
      ∧ (∀ a, line s s.cfg.scIn = .driven a → bs = List.replicate 8 a ∧ t.answers = s.answers)
      ∧ (∀ q, t.latOf q =
          if q = s.cfg.scClk then .is s.cfg.scCpol
          else if q = s.cfg.scOut then .is (v.getLsbD 0) else s.latOf q)
      ∧ (∀ q, t.dirOf q = s.dirOf q ∧ t.puOf q = s.puOf q) ∧ SameControl s t

/-- 41 R83, R77, 95 S5: every byte makes sixteen clock edges, away from and back to the idle level `SC_CPOL` eight times, and
leaves the clock latched at idle, as SC.BEGIN does. -/
def Obligations.ScClockShape : Prop :=
  ∀ (i : Instr) (s : State), admitted s.cfg = true → isTwoWire i = false →
    ∃ t es, exec i s = .next t ∧ Appended s t es ∧ t.latOf s.cfg.scClk = .is s.cfg.scCpol
      ∧ levelsOf s.cfg.scClk es =
          if i = .scBegin then [s.cfg.scCpol]
          else (List.replicate 8 [!s.cfg.scCpol, s.cfg.scCpol]).flatten

/-- 41 R84 and the mode table of R77: the events of SC.TRANSFER's bits in each mode, and the clock level at every sample of
SC.RECEIVE and SC.TRANSFER: 1 (a rising edge) where `SC_CPOL = SC_CPHA`, 0 (a falling edge) elsewhere. -/
def Obligations.ScSampleEdge : Prop :=
  ∀ (i : Instr) (s : State), admitted s.cfg = true → i = .scReceive ∨ (∃ v, i = .scTransfer v) →
    ∃ t es, exec i s = .next t ∧ Appended s t es
      ∧ levelAtSamples s.cfg.scClk (s.latOf s.cfg.scClk) es =
          List.replicate 8 (.is (decide (s.cfg.scCpol = s.cfg.scCpha)))
      ∧ ∀ v, i = .scTransfer v → ∃ bs, bs.length = 8 ∧ es =
          (List.zip (msbFirst v) bs).flatMap fun x =>
            match s.cfg.scCpol, s.cfg.scCpha with
            | false, false =>
              [.lvl s.cfg.scOut x.1, .lvl s.cfg.scClk true, .smp s.cfg.scIn x.2, .lvl s.cfg.scClk false]
            | false, true =>
              [.lvl s.cfg.scClk true, .lvl s.cfg.scOut x.1, .lvl s.cfg.scClk false, .smp s.cfg.scIn x.2]
            | true, false =>
              [.lvl s.cfg.scOut x.1, .lvl s.cfg.scClk false, .smp s.cfg.scIn x.2, .lvl s.cfg.scClk true]
            | true, true =>
              [.lvl s.cfg.scClk false, .lvl s.cfg.scOut x.1, .lvl s.cfg.scClk true, .smp s.cfg.scIn x.2]

/-- 41 R85: SC.BEGIN latches the output at its idle level `not SC_CPHA`; after SC.SEND or SC.TRANSFER of `v` it is latched to
`v[0]`; SC.RECEIVE leaves it; none of the three changes a direction. -/
def Obligations.ScOutputLine : Prop :=
  ∀ (s : State) (v : Byte), admitted s.cfg = true →
    (∃ t, exec .scBegin s = .next t ∧ t.latOf s.cfg.scOut = .is (!s.cfg.scCpha))
    ∧ (∀ i, i = .scSend v ∨ i = .scTransfer v →
      ∃ t, exec i s = .next t ∧ t.latOf s.cfg.scOut = .is (v.getLsbD 0) ∧ ∀ q, t.dirOf q = s.dirOf q)
    ∧ ∃ t, exec .scReceive s = .next t ∧ t.latOf s.cfg.scOut = s.latOf s.cfg.scOut ∧ ∀ q, t.dirOf q = s.dirOf q

/-- 41 R82: with `SC_OUT` looped back to `SC_IN`, so that every sample reads the level the output was last set to, SC.TRANSFER
returns the byte sent, in every mode. -/
def Obligations.ScLoopbackReturnsTheByte : Prop :=
  ∀ (s : State) (v : Byte), admitted s.cfg = true →
    ∃ t es, exec (.scTransfer v) s = .next t ∧ Appended s t es
      ∧ (levelAtSamples s.cfg.scOut (s.latOf s.cfg.scOut) es = (samplesIn es).map Held.is → t.res = .byte v)

/-! ## Both engines -/

/-- 10 R18: no command of one engine touches a pin of the other: neither its fields nor by an event. -/
def Obligations.EnginesTouchOnlyTheirPins : Prop :=
  ∀ (i : Instr) (s : State), admitted s.cfg = true → ∃ t es, exec i s = .next t ∧ Appended s t es
    ∧ ∀ q, q ∈ (if isTwoWire i then [s.cfg.scClk, s.cfg.scIn, s.cfg.scOut] else s.cfg.twSda ++ [s.cfg.twScl]) →
      t.dirOf q = s.dirOf q ∧ t.latOf q = s.latOf q ∧ t.puOf q = s.puOf q
        ∧ ∀ e ∈ es, eventPin e ≠ some q ∧ (isBcast e = true → isTwoWire i = true)

/-- 10 R20, R22, 20 R33, R34: no command reads `RES`, `FLT`, `cp`, `PROG`, `PU` or a recorded command word. Two states that agree
on the configuration, the directions, the latches, the pin events of the trace and the scripted answers answer the
same events, the same result and again agreeing states. -/
def Obligations.CommandsReadOnlyPinsAndPinEvents : Prop :=
  ∀ (i : Instr) (s s' : State), admitted s.cfg = true → s'.cfg = s.cfg →
    (∀ q, s'.dirOf q = s.dirOf q ∧ s'.latOf q = s.latOf q) → pinEvents s'.trace = pinEvents s.trace →
    s'.answers = s.answers →
    ∃ t t' es, exec i s = .next t ∧ exec i s' = .next t' ∧ Appended s t es ∧ Appended s' t' es ∧ t'.res = t.res
      ∧ (∀ q, t'.dirOf q = t.dirOf q ∧ t'.latOf q = t.latOf q) ∧ t'.answers = t.answers

/-- 10 R19: the kind of result each command writes. -/
def Obligations.ResultKinds : Prop :=
  ∀ (i : Instr) (s : State), ∃ t, exec i s = .next t
    ∧ match i with
      | .twInit _ => t.res = .none
      | .twStart _ _ => ∃ b, t.res = .ack b
      | .twRestart _ _ => ∃ b, t.res = .ack b
      | .twStop _ => t.res = .none
      | .twWrite _ _ => ∃ b, t.res = .ack b
      | .twRead _ _ => ∃ v, t.res = .byte v
      | .twWritebyte _ _ _ => ∃ b, t.res = .ack b
      | .twReadbyte _ _ => ∃ v, t.res = .byte v
      | .scBegin => t.res = .none
      | .scSend _ => t.res = .none
      | .scReceive => ∃ v, t.res = .byte v
      | .scTransfer _ => ∃ v, t.res = .byte v

/-- 40 R65 to R72, 41 R78 to R82 in one table: every command in every state, whatever its configuration, takes as many
samples as the table says, appends the table's events, leaves every pin as those events set it, writes the result its
samples give, and changes nothing else but the environment's answers. -/
def Obligations.CommandsRefineTheirEventTable : Prop :=
  ∀ (i : Instr) (s : State), ∃ bs t, bs.length = sampleCount s.cfg i ∧ exec i s = .next t
    ∧ Appended s t (commandEvents s.cfg i bs) ∧ t.res = commandResult s.cfg i bs
    ∧ (∀ q, t.dirOf q = lastDir q (s.dirOf q) (commandEvents s.cfg i bs)
        ∧ t.latOf q = lastLvl s.cfg.twSda q (s.latOf q) (commandEvents s.cfg i bs)
        ∧ t.puOf q = lastPull q (s.puOf q) (commandEvents s.cfg i bs))
    ∧ SameControl s t

/-- 30 R58: the result word, field by field; kind 11 is never produced. -/
def Obligations.ResultWordLayout : Prop :=
  ∀ s : State,
    (resultWord s).getLsbD 15 = decide (s.flt ≠ .none)
    ∧ (resultWord s).extractLsb' 10 5 = 0#5
    ∧ (resultWord s).extractLsb' 8 2 ≠ 3#2
    ∧ (resultWord s).toNat % 2 ^ 10 =
        match s.res with
        | .none => 0
        | .ack b => 0x100 + b.toNat
        | .byte v => 0x200 + v.toNat

/-- 10 R14, R15: the configuration registers as words, reserved bits 0, and the mode number. -/
def Obligations.ConfigurationRegisterWords : Prop :=
  ∀ c : Config, admitted c = true →
    (twCfgWord c).toNat = c.twN ∧ (twDlyWord c).toNat = c.twDelayUs
    ∧ (scCfgWord c).toNat = c.scCpha.toNat + 2 * c.scCpol.toNat + 4 * c.scPullup.toNat
    ∧ (scMode c).toNat = 2 * c.scCpol.toNat + c.scCpha.toNat
end

