-- ==== Sys2Proof/Laws/PinFile.lean ====
section
/-! SUPPORT. The pin files: reading after writing, and that every operation keeps the canonical form. -/

namespace Sys2Proof.Machine

variable {α : Type}

/-- Reading after writing: the written pin holds the value, every other pin what it held. -/
theorem pinRead_pinWrite (f : PinFile α) (p q : PinId) (v : α) :
    pinRead (pinWrite f p v) q = if p = q then .is v else pinRead f q := by
  induction f with
  | nil => by_cases h : p = q <;> simp [pinWrite, pinRead, h]
  | cons e f ih =>
    obtain ⟨r, a⟩ := e
    simp only [pinWrite]
    split
    · next h => subst h; by_cases h : r = q <;> simp [pinRead, h]
    · split
      · by_cases h : p = q <;> simp [pinRead, h]
      · next h _ =>
        simp only [pinRead, ih]
        by_cases h1 : r = q
        · have : p ≠ q := fun h2 => h (h1.trans h2.symm)
          simp [h1, this]
        · simp [h1]

/-- The pins a written file lists. -/
theorem mem_pinWrite {f : PinFile α} {p : PinId} {v : α} {e : PinId × α} (h : e ∈ pinWrite f p v) :
    e = (p, v) ∨ e ∈ f := by
  induction f with
  | nil => simpa [pinWrite] using h
  | cons x f ih =>
    obtain ⟨r, a⟩ := x
    simp only [pinWrite] at h
    split at h
    · simp only [List.mem_cons] at h ⊢; tauto
    · split at h
      · simp only [List.mem_cons] at h ⊢; tauto
      · simp only [List.mem_cons] at h ⊢
        rcases h with h | h
        · exact .inr (.inl h)
        · rcases ih h with h | h <;> tauto

/-- A write keeps the pins strictly rising. -/
theorem pinFileWf_pinWrite {f : PinFile α} (h : pinFileWf f) (p : PinId) (v : α) : pinFileWf (pinWrite f p v) := by
  induction f with
  | nil => simp [pinFileWf, pinWrite]
  | cons x f ih =>
    obtain ⟨r, a⟩ := x
    simp only [pinFileWf, List.map_cons, List.pairwise_cons] at h ih
    obtain ⟨hr, hf⟩ := h
    simp only [pinWrite]
    split
    · next e => subst e; simpa [pinFileWf] using ⟨by simpa using hr, hf⟩
    · split
      · next hlt =>
        simp only [pinFileWf, List.map_cons, List.pairwise_cons, List.mem_cons]
        refine ⟨?_, hr, hf⟩
        rintro q (rfl | hq)
        · exact hlt
        · exact Nat.lt_trans hlt (hr q hq)
      · next hne hnlt =>
        simp only [pinFileWf, List.map_cons, List.pairwise_cons]
        refine ⟨?_, ih hf⟩
        intro q hq
        obtain ⟨e, he, rfl⟩ := List.mem_map.1 hq
        rcases mem_pinWrite he with rfl | he
        · exact Nat.lt_of_le_of_ne (Nat.le_of_not_lt hnlt) hne
        · exact hr _ (List.mem_map_of_mem he)

theorem pinRead_pinWriteAll (f : PinFile α) (ps : List PinId) (q : PinId) (v : α) :
    pinRead (pinWriteAll f ps v) q = if q ∈ ps then .is v else pinRead f q := by
  induction ps generalizing f with
  | nil => simp [pinWriteAll]
  | cons p ps ih =>
    have : pinWriteAll f (p :: ps) v = pinWriteAll (pinWrite f p v) ps v := rfl
    rw [this, ih, pinRead_pinWrite]
    by_cases h : q ∈ ps <;> by_cases h2 : p = q
    · simp [h, h2]
    · simp [h]
    · simp [h, h2]
    · have : ¬ q = p := fun e => h2 e.symm
      simp [h, h2, this]

theorem pinFileWf_pinWriteAll {f : PinFile α} (h : pinFileWf f) (ps : List PinId) (v : α) :
    pinFileWf (pinWriteAll f ps v) := by
  induction ps generalizing f with
  | nil => exact h
  | cons p ps ih => exact ih (pinFileWf_pinWrite h p v)

theorem mem_pinWriteAll {f : PinFile α} {ps : List PinId} {v : α} {e : PinId × α} (h : e ∈ pinWriteAll f ps v) :
    e.1 ∈ ps ∨ e ∈ f := by
  induction ps generalizing f with
  | nil => exact .inr h
  | cons p ps ih =>
    rcases ih h with h | h
    · exact .inl (List.mem_cons_of_mem _ h)
    · rcases mem_pinWrite h with rfl | h
      · exact .inl (List.mem_cons_self)
      · exact .inr h

/-- A pin below every listed pin holds UNK. -/
theorem pinRead_eq_unk {f : PinFile α} {p : PinId} (h : ∀ q ∈ f.map Prod.fst, p < q) : pinRead f p = .unk := by
  induction f with
  | nil => rfl
  | cons x f ih =>
    obtain ⟨r, a⟩ := x
    have h1 : p < r := h r (by simp)
    have : ¬ r = p := Nat.ne_of_gt h1
    simp only [pinRead, this, if_false]
    exact ih fun q hq => h q (List.mem_cons_of_mem _ hq)

/-- Canonical files with equal contents are equal data. -/
theorem pinFile_ext {f g : PinFile α} (hf : pinFileWf f) (hg : pinFileWf g)
    (h : ∀ p, pinRead f p = pinRead g p) : f = g := by
  induction f generalizing g with
  | nil =>
    cases g with
    | nil => rfl
    | cons y g => have := h y.1; simp [pinRead] at this
  | cons x f ih =>
    obtain ⟨r, a⟩ := x
    simp only [pinFileWf, List.map_cons, List.pairwise_cons] at hf
    cases g with
    | nil => have := h r; simp [pinRead] at this
    | cons y g =>
      obtain ⟨t, b⟩ := y
      simp only [pinFileWf, List.map_cons, List.pairwise_cons] at hg
      have hrt : r = t := by
        rcases Nat.lt_trichotomy r t with hlt | heq | hlt
        · have h1 := h r
          have : pinRead ((t, b) :: g) r = .unk := pinRead_eq_unk (by
            simp only [List.map_cons, List.mem_cons]
            rintro q (rfl | hq)
            · exact hlt
            · exact Nat.lt_trans hlt (hg.1 q hq))
          rw [this] at h1
          simp [pinRead] at h1
        · exact heq
        · have h1 := h t
          have : pinRead ((r, a) :: f) t = .unk := pinRead_eq_unk (by
            simp only [List.map_cons, List.mem_cons]
            rintro q (rfl | hq)
            · exact hlt
            · exact Nat.lt_trans hlt (hf.1 q hq))
          rw [this] at h1
          simp [pinRead] at h1
      subst hrt
      have hab : a = b := by simpa [pinRead] using h r
      subst hab
      have : f = g := by
        refine ih hf.2 hg.2 fun p => ?_
        by_cases hp : r = p
        · subst hp
          rw [pinRead_eq_unk hf.1, pinRead_eq_unk hg.1]
        · simpa [pinRead, hp] using h p
      rw [this]

end Sys2Proof.Machine
end

