-- ==== Sys2Proof/Laws/State.lean ====
section
/-! SUPPORT. One lemma per field per update: what each named operation does to each field of State. -/

namespace Sys2Proof.Machine

variable (s : State) (p q : PinId) (b : Bit) (d : Dir) (w : Word) (k : Nat) (r : Result)

@[simp] theorem pinSetDir_cfg : (pinSetDir p d s).cfg = s.cfg := rfl
@[simp] theorem pinSetDir_prog : (pinSetDir p d s).prog = s.prog := rfl
@[simp] theorem pinSetDir_answers : (pinSetDir p d s).answers = s.answers := rfl
@[simp] theorem pinSetDir_dir : (pinSetDir p d s).dir = pinWrite s.dir p d := rfl
@[simp] theorem pinSetDir_lat : (pinSetDir p d s).lat = s.lat := rfl
@[simp] theorem pinSetDir_pu : (pinSetDir p d s).pu = s.pu := rfl
@[simp] theorem pinSetDir_res : (pinSetDir p d s).res = s.res := rfl
@[simp] theorem pinSetDir_flt : (pinSetDir p d s).flt = s.flt := rfl
@[simp] theorem pinSetDir_cp : (pinSetDir p d s).cp = s.cp := rfl
@[simp] theorem pinSetDir_trace : (pinSetDir p d s).trace = s.trace ++ [.pin (.dir p d)] := rfl

@[simp] theorem pinSet_cfg : (pinSet p b s).cfg = s.cfg := rfl
@[simp] theorem pinSet_prog : (pinSet p b s).prog = s.prog := rfl
@[simp] theorem pinSet_answers : (pinSet p b s).answers = s.answers := rfl
@[simp] theorem pinSet_dir : (pinSet p b s).dir = s.dir := rfl
@[simp] theorem pinSet_lat : (pinSet p b s).lat = pinWrite s.lat p b := rfl
@[simp] theorem pinSet_pu : (pinSet p b s).pu = s.pu := rfl
@[simp] theorem pinSet_res : (pinSet p b s).res = s.res := rfl
@[simp] theorem pinSet_flt : (pinSet p b s).flt = s.flt := rfl
@[simp] theorem pinSet_cp : (pinSet p b s).cp = s.cp := rfl
@[simp] theorem pinSet_trace : (pinSet p b s).trace = s.trace ++ [.pin (.lvl p b)] := rfl

@[simp] theorem pinPull_cfg : (pinPull p b s).cfg = s.cfg := rfl
@[simp] theorem pinPull_prog : (pinPull p b s).prog = s.prog := rfl
@[simp] theorem pinPull_answers : (pinPull p b s).answers = s.answers := rfl
@[simp] theorem pinPull_dir : (pinPull p b s).dir = s.dir := rfl
@[simp] theorem pinPull_lat : (pinPull p b s).lat = s.lat := rfl
@[simp] theorem pinPull_pu : (pinPull p b s).pu = pinWrite s.pu p b := rfl
@[simp] theorem pinPull_res : (pinPull p b s).res = s.res := rfl
@[simp] theorem pinPull_flt : (pinPull p b s).flt = s.flt := rfl
@[simp] theorem pinPull_cp : (pinPull p b s).cp = s.cp := rfl
@[simp] theorem pinPull_trace : (pinPull p b s).trace = s.trace ++ [.pin (.pull p b)] := rfl

@[simp] theorem bcastData_cfg : (bcastData b s).cfg = s.cfg := rfl
@[simp] theorem bcastData_prog : (bcastData b s).prog = s.prog := rfl
@[simp] theorem bcastData_answers : (bcastData b s).answers = s.answers := rfl
@[simp] theorem bcastData_dir : (bcastData b s).dir = s.dir := rfl
@[simp] theorem bcastData_lat : (bcastData b s).lat = pinWriteAll s.lat s.cfg.twSda b := rfl
@[simp] theorem bcastData_pu : (bcastData b s).pu = s.pu := rfl
@[simp] theorem bcastData_res : (bcastData b s).res = s.res := rfl
@[simp] theorem bcastData_flt : (bcastData b s).flt = s.flt := rfl
@[simp] theorem bcastData_cp : (bcastData b s).cp = s.cp := rfl
@[simp] theorem bcastData_trace : (bcastData b s).trace = s.trace ++ [.pin (.bcast b)] := rfl

@[simp] theorem delay_cfg : (delay s).cfg = s.cfg := rfl
@[simp] theorem delay_prog : (delay s).prog = s.prog := rfl
@[simp] theorem delay_answers : (delay s).answers = s.answers := rfl
@[simp] theorem delay_dir : (delay s).dir = s.dir := rfl
@[simp] theorem delay_lat : (delay s).lat = s.lat := rfl
@[simp] theorem delay_pu : (delay s).pu = s.pu := rfl
@[simp] theorem delay_res : (delay s).res = s.res := rfl
@[simp] theorem delay_flt : (delay s).flt = s.flt := rfl
@[simp] theorem delay_cp : (delay s).cp = s.cp := rfl
@[simp] theorem delay_trace : (delay s).trace = s.trace ++ [.pin .wait] := rfl

@[simp] theorem writeRes_cfg : (writeRes r s).cfg = s.cfg := rfl
@[simp] theorem writeRes_prog : (writeRes r s).prog = s.prog := rfl
@[simp] theorem writeRes_answers : (writeRes r s).answers = s.answers := rfl
@[simp] theorem writeRes_dir : (writeRes r s).dir = s.dir := rfl
@[simp] theorem writeRes_lat : (writeRes r s).lat = s.lat := rfl
@[simp] theorem writeRes_pu : (writeRes r s).pu = s.pu := rfl
@[simp] theorem writeRes_res : (writeRes r s).res = r := rfl
@[simp] theorem writeRes_flt : (writeRes r s).flt = s.flt := rfl
@[simp] theorem writeRes_cp : (writeRes r s).cp = s.cp := rfl
@[simp] theorem writeRes_trace : (writeRes r s).trace = s.trace := rfl

@[simp] theorem startCommand_cfg : (startCommand w s).cfg = s.cfg := rfl
@[simp] theorem startCommand_prog : (startCommand w s).prog = s.prog := rfl
@[simp] theorem startCommand_answers : (startCommand w s).answers = s.answers := rfl
@[simp] theorem startCommand_dir : (startCommand w s).dir = s.dir := rfl
@[simp] theorem startCommand_lat : (startCommand w s).lat = s.lat := rfl
@[simp] theorem startCommand_pu : (startCommand w s).pu = s.pu := rfl
@[simp] theorem startCommand_res : (startCommand w s).res = s.res := rfl
@[simp] theorem startCommand_flt : (startCommand w s).flt = s.flt := rfl
@[simp] theorem startCommand_cp : (startCommand w s).cp = s.cp := rfl
@[simp] theorem startCommand_trace : (startCommand w s).trace = s.trace ++ [.cmd w] := rfl

@[simp] theorem advance_cfg : (advance s).cfg = s.cfg := rfl
@[simp] theorem advance_prog : (advance s).prog = s.prog := rfl
@[simp] theorem advance_answers : (advance s).answers = s.answers := rfl
@[simp] theorem advance_dir : (advance s).dir = s.dir := rfl
@[simp] theorem advance_lat : (advance s).lat = s.lat := rfl
@[simp] theorem advance_pu : (advance s).pu = s.pu := rfl
@[simp] theorem advance_res : (advance s).res = s.res := rfl
@[simp] theorem advance_flt : (advance s).flt = s.flt := rfl
@[simp] theorem advance_cp : (advance s).cp = s.cp + 1 := rfl
@[simp] theorem advance_trace : (advance s).trace = s.trace := rfl

@[simp] theorem raiseIllegalCommand_cfg : (raiseIllegalCommand w k s).cfg = s.cfg := rfl
@[simp] theorem raiseIllegalCommand_prog : (raiseIllegalCommand w k s).prog = s.prog := rfl
@[simp] theorem raiseIllegalCommand_answers : (raiseIllegalCommand w k s).answers = s.answers := rfl
@[simp] theorem raiseIllegalCommand_dir : (raiseIllegalCommand w k s).dir = s.dir := rfl
@[simp] theorem raiseIllegalCommand_lat : (raiseIllegalCommand w k s).lat = s.lat := rfl
@[simp] theorem raiseIllegalCommand_pu : (raiseIllegalCommand w k s).pu = s.pu := rfl
@[simp] theorem raiseIllegalCommand_res : (raiseIllegalCommand w k s).res = s.res := rfl
@[simp] theorem raiseIllegalCommand_flt : (raiseIllegalCommand w k s).flt = .illegalCommand w k := rfl
@[simp] theorem raiseIllegalCommand_cp : (raiseIllegalCommand w k s).cp = s.cp := rfl
@[simp] theorem raiseIllegalCommand_trace : (raiseIllegalCommand w k s).trace = s.trace := rfl

end Sys2Proof.Machine
end

