-- ==== Sys2Proof/Laws/Ops.lean ====
section
/-! SUPPORT. What the shared operations do, said once: each primitive performs one event, a command performs a list of
events, and everything a list of events changes is read off the list. -/

namespace Sys2Proof.Laws

open Sys2Proof.Machine Sys2Proof.Safety

/-- Perform one pin event: the primitive that appends it; for a sample, the one the environment answered. -/
def perform (e : PinEvent) (s : State) : State :=
  match e with
  | .dir p d => pinSetDir p d s
  | .lvl p b => pinSet p b s
  | .pull p b => pinPull p b s
  | .bcast b => bcastData b s
  | .wait => delay s
  | .smp p b => { s with answers := s.answers.tail, trace := s.trace ++ [.pin (.smp p b)] }

def performAll : List PinEvent → State → State
  | [], s => s
  | e :: es, s => performAll es (perform e s)

theorem performAll_append (es fs : List PinEvent) (s : State) :
    performAll (es ++ fs) s = performAll fs (performAll es s) := by
  induction es generalizing s with
  | nil => rfl
  | cons e es ih => exact ih _

/-! ## What a list of events changes -/

section Changes
variable (es : List PinEvent) (s : State)

theorem performAll_cfg : (performAll es s).cfg = s.cfg := by
  induction es generalizing s with
  | nil => rfl
  | cons e es ih => rw [performAll, ih]; cases e <;> rfl

theorem performAll_prog : (performAll es s).prog = s.prog := by
  induction es generalizing s with
  | nil => rfl
  | cons e es ih => rw [performAll, ih]; cases e <;> rfl

theorem performAll_res : (performAll es s).res = s.res := by
  induction es generalizing s with
  | nil => rfl
  | cons e es ih => rw [performAll, ih]; cases e <;> rfl

theorem performAll_flt : (performAll es s).flt = s.flt := by
  induction es generalizing s with
  | nil => rfl
  | cons e es ih => rw [performAll, ih]; cases e <;> rfl

theorem performAll_cp : (performAll es s).cp = s.cp := by
  induction es generalizing s with
  | nil => rfl
  | cons e es ih => rw [performAll, ih]; cases e <;> rfl

theorem performAll_trace : (performAll es s).trace = s.trace ++ es.map .pin := by
  induction es generalizing s with
  | nil => simp [performAll]
  | cons e es ih => rw [performAll, ih]; cases e <;> simp [perform]

theorem performAll_answers : (performAll es s).answers = s.answers.drop (samplesIn es).length := by
  induction es generalizing s with
  | nil => simp [performAll, samplesIn]
  | cons e es ih => rw [performAll, ih]; cases e <;> simp [perform, samplesIn]

theorem performAll_dirOf (p : PinId) : (performAll es s).dirOf p = lastDir p (s.dirOf p) es := by
  induction es generalizing s with
  | nil => rfl
  | cons e es ih =>
    rw [performAll, ih]
    cases e <;> simp [perform, lastDir, State.dirOf, pinRead_pinWrite]

theorem performAll_latOf (p : PinId) : (performAll es s).latOf p = lastLvl s.cfg.twSda p (s.latOf p) es := by
  induction es generalizing s with
  | nil => rfl
  | cons e es ih =>
    rw [performAll, ih]
    cases e <;> simp [perform, lastLvl, State.latOf, pinRead_pinWrite, pinRead_pinWriteAll]

theorem performAll_puOf (p : PinId) : (performAll es s).puOf p = lastPull p (s.puOf p) es := by
  induction es generalizing s with
  | nil => rfl
  | cons e es ih =>
    rw [performAll, ih]
    cases e <;> simp [perform, lastPull, State.puOf, pinRead_pinWrite]

theorem performAll_dirWf (h : pinFileWf s.dir) : pinFileWf (performAll es s).dir := by
  induction es generalizing s with
  | nil => exact h
  | cons e es ih => exact ih _ (by cases e <;> first | exact h | exact pinFileWf_pinWrite h _ _)

theorem performAll_latWf (h : pinFileWf s.lat) : pinFileWf (performAll es s).lat := by
  induction es generalizing s with
  | nil => exact h
  | cons e es ih =>
    exact ih _ (by
      cases e <;> first | exact h | exact pinFileWf_pinWrite h _ _ | exact pinFileWf_pinWriteAll h _ _)

theorem performAll_puWf (h : pinFileWf s.pu) : pinFileWf (performAll es s).pu := by
  induction es generalizing s with
  | nil => exact h
  | cons e es ih => exact ih _ (by cases e <;> first | exact h | exact pinFileWf_pinWrite h _ _)

end Changes

/-! ## The environment's answers -/

theorem envAnswers_append (a : List Bit) (t : List Event) (es fs : List PinEvent) :
    EnvAnswers a t (es ++ fs) ↔
      EnvAnswers a t es ∧ EnvAnswers (a.drop (samplesIn es).length) (t ++ es.map .pin) fs := by
  induction es generalizing a t with
  | nil => simp [EnvAnswers, samplesIn]
  | cons e es ih => cases e <;> simp [EnvAnswers, samplesIn, ih, and_assoc]

/-- `t` is `s` after the events `es`, every sample of them answered by the environment. -/
def Runs (s : State) (es : List PinEvent) (t : State) : Prop :=
  t = performAll es s ∧ EnvAnswers s.answers s.trace es

theorem Runs.append {s t u : State} {es fs : List PinEvent} (h : Runs s es t) (k : Runs t fs u) :
    Runs s (es ++ fs) u := by
  obtain ⟨rfl, h⟩ := h
  obtain ⟨rfl, k⟩ := k
  refine ⟨(performAll_append ..).symm, (envAnswers_append ..).2 ⟨h, ?_⟩⟩
  rwa [performAll_answers, performAll_trace] at k

/-- A list without samples needs no answers. -/
theorem Runs.silent {s : State} {es : List PinEvent} (h : samplesIn es = []) : Runs s es (performAll es s) := by
  refine ⟨rfl, ?_⟩
  generalize s.trace = t
  induction es generalizing t with
  | nil => trivial
  | cons e es ih => cases e <;> simp_all [EnvAnswers, samplesIn]

theorem Runs.cfg {s t : State} {es : List PinEvent} (h : Runs s es t) : t.cfg = s.cfg := by
  rw [h.1, performAll_cfg]

/-! ## The sample (20 R33) -/

/-- A pin the controller does not drive is answered by the environment. -/
theorem pinGet_undriven {s : State} {p : PinId} (h : s.dirOf p ≠ .is .output) :
    pinGet p s = (envAnswer s.answers s.trace p, perform (.smp p (envAnswer s.answers s.trace p)) s) := by
  have : line s p = .environment := by
    unfold line
    split <;> simp_all
  simp [pinGet, this, perform]

/-- A pin driven at an unknown level is answered by the environment. -/
theorem pinGet_unknown {s : State} {p : PinId} (h : s.dirOf p = .is .output) (k : s.latOf p = .unk) :
    pinGet p s = (envAnswer s.answers s.trace p, perform (.smp p (envAnswer s.answers s.trace p)) s) := by
  simp [pinGet, line, h, k, perform]

/-- A pin driven at a known level reads its latch; no answer is used. -/
theorem pinGet_driven {s : State} {p : PinId} {b : Bit} (h : s.dirOf p = .is .output) (k : s.latOf p = .is b) :
    pinGet p s = (b, { s with trace := s.trace ++ [.pin (.smp p b)] }) := by
  simp [pinGet, line, h, k]

/-- A sample answered by the environment, as a run. -/
theorem pinGet_runs {s : State} {p : PinId} (h : ∀ b, line s p ≠ .driven b) :
    Runs s [.smp p (pinGet p s).1] (pinGet p s).2 := by
  by_cases hd : s.dirOf p = .is .output
  · cases hl : s.latOf p with
    | unk => rw [pinGet_unknown hd hl]; exact ⟨rfl, rfl, trivial⟩
    | is b => exact absurd (by simp [line, hd, hl]) (h b)
  · rw [pinGet_undriven hd]; exact ⟨rfl, rfl, trivial⟩

@[simp] theorem pinGet_cfg (p : PinId) (s : State) : (pinGet p s).2.cfg = s.cfg := by
  unfold pinGet; split <;> rfl

/-! ## Assembling a byte (40 R74) -/

/-- The accumulator after the samples `bs` at the bit positions `is`. -/
def orAll (acc : Byte) : List Nat → List Bit → Byte
  | i :: is, b :: bs => orAll (orBit acc i b) is bs
  | _, _ => acc

theorem eight_cases {bs : List Bit} (h : bs.length = 8) :
    ∃ b7 b6 b5 b4 b3 b2 b1 b0, bs = [b7, b6, b5, b4, b3, b2, b1, b0] := by
  match bs, h with
  | [b7, b6, b5, b4, b3, b2, b1, b0], _ => exact ⟨b7, b6, b5, b4, b3, b2, b1, b0, rfl⟩

/-- ORing the samples in at bits 7 to 0 gives the sum of 40 R74. -/
theorem orAll_bitOrder {bs : List Bit} (h : bs.length = 8) : orAll 0x00#8 bitOrder bs = byteOfSamples bs := by
  obtain ⟨b7, b6, b5, b4, b3, b2, b1, b0, rfl⟩ := eight_cases h
  revert b7 b6 b5 b4 b3 b2 b1 b0
  decide

/-- A byte's bits in wire order give the byte back. -/
theorem byteOfSamples_msbFirst (v : Byte) : byteOfSamples (msbFirst v) = v := by
  revert v; decide

/-- A loop of eight samples: if one turn ORs in one sample and performs the events `E i b`, the loop ORs in all of them and
performs their events one after the other. -/
theorem foldl_samples {R : State → List PinEvent → State → Prop} {P : State → Prop} {Q : Bit → Prop}
    (nil : ∀ s, R s [] s) (app : ∀ {s t u es fs}, R s es t → R t fs u → R s (es ++ fs) u)
    (f : Byte × State → Nat → Byte × State) (E : Nat → Bit → List PinEvent)
    (turn : ∀ acc s i, P s → ∃ b t, Q b ∧ f (acc, s) i = (orBit acc i b, t) ∧ R s (E i b) t ∧ P t)
    (is : List Nat) (acc : Byte) (s : State) (hs : P s) :
    ∃ bs, bs.length = is.length ∧ (∀ b ∈ bs, Q b) ∧ (is.foldl f (acc, s)).1 = orAll acc is bs
      ∧ R s ((is.zip bs).flatMap fun x => E x.1 x.2) (is.foldl f (acc, s)).2
      ∧ P (is.foldl f (acc, s)).2 := by
  induction is generalizing acc s with
  | nil => exact ⟨[], rfl, by simp, rfl, nil s, hs⟩
  | cons i is ih =>
    obtain ⟨b, t, hq, hf, hr, ht⟩ := turn acc s i hs
    obtain ⟨bs, hl, hqs, h1, h2, h3⟩ := ih (orBit acc i b) t ht
    refine ⟨b :: bs, by simp [hl], by
      intro x hx
      rcases List.mem_cons.1 hx with rfl | hx
      · exact hq
      · exact hqs _ hx, ?_, ?_, ?_⟩
    · simpa [List.foldl, hf, orAll] using h1
    · simpa [List.foldl, hf] using app hr h2
    · simpa [List.foldl, hf] using h3

theorem Runs.nil (s : State) : Runs s [] s := ⟨rfl, trivial⟩

end Sys2Proof.Laws
end

