-- ==== Sys2Proof/Laws/SerialClock.lean ====
section
/-! SUPPORT. The serial-clock engine: what `SC_Bit` and each command performs, as one list of events. A sample of `SC_IN` is the
environment's answer unless the controller drives that pin at a known level, which no command makes it do (20 R33). -/

namespace Sys2Proof.Laws

open Sys2Proof.Machine Sys2Proof.Safety

/-- `t` is `s` after the events `es`, with no answer used: every sample read the pin's own latch. -/
def RunsDriven (s : State) (es : List PinEvent) (t : State) : Prop :=
  t = { performAll es s with answers := s.answers }

theorem performAll_withAnswers (es : List PinEvent) (a : List Bit) (s : State) :
    performAll es { s with answers := a } = { performAll es s with answers := a.drop (samplesIn es).length } := by
  induction es generalizing s a with
  | nil => rfl
  | cons e es ih =>
    cases e with
    | smp p b =>
      show performAll es { perform (.smp p b) s with answers := a.tail } = _
      rw [ih]
      simp [performAll, samplesIn]
    | dir p d => exact ih a (perform (.dir p d) s)
    | lvl p b => exact ih a (perform (.lvl p b) s)
    | pull p b => exact ih a (perform (.pull p b) s)
    | bcast b => exact ih a (perform (.bcast b) s)
    | wait => exact ih a (perform .wait s)

theorem RunsDriven.append {s t u : State} {es fs : List PinEvent} (h : RunsDriven s es t) (k : RunsDriven t fs u) :
    RunsDriven s (es ++ fs) u := by
  rw [RunsDriven] at h k ⊢
  rw [k, h, performAll_withAnswers, performAll_append]

theorem RunsDriven.nil (s : State) : RunsDriven s [] s := rfl

theorem RunsDriven.silent {s : State} {es : List PinEvent} (h : samplesIn es = []) : RunsDriven s es (performAll es s) := by
  have : (performAll es s).answers = s.answers := by rw [performAll_answers, h]; rfl
  rw [RunsDriven, ← this]

theorem pinGet_runsDriven {s : State} {p : PinId} {b : Bit} (h : line s p = .driven b) :
    (pinGet p s).1 = b ∧ RunsDriven s [.smp p b] (pinGet p s).2 := by
  simp [pinGet, h, RunsDriven, performAll, perform]

/-! ## `SC_Bit` (41 R79) by the table of 41 R84 -/

theorem scBit_send (b : Bit) (s : State) :
    (scBit true b false s).2 = performAll (scBitEvents s.cfg [.lvl s.cfg.scOut b] []) s := by
  cases hp : s.cfg.scCpol <;> cases ha : s.cfg.scCpha <;>
    simp [scBit, scBitEvents, hp, ha, performAll, perform]

/-- The events of a bit that samples, before the sample. -/
def scBefore (c : Config) (tx : List PinEvent) : List PinEvent :=
  if c.scCpha then [.lvl c.scClk (!c.scCpol)] ++ tx ++ [.lvl c.scClk c.scCpol] else tx ++ [.lvl c.scClk (!c.scCpol)]

/-- The events of a bit that samples, after the sample. -/
def scAfter (c : Config) : List PinEvent := if c.scCpha then [] else [.lvl c.scClk c.scCpol]

theorem scBitEvents_split (c : Config) (tx : List PinEvent) (e : PinEvent) :
    scBitEvents c tx [e] = scBefore c tx ++ [e] ++ scAfter c := by
  cases hp : c.scCpol <;> cases ha : c.scCpha <;> simp [scBitEvents, scBefore, scAfter, hp, ha]

/-- The output's event of a bit. -/
def scTx (c : Config) (doTx b : Bit) : List PinEvent := if doTx then [.lvl c.scOut b] else []

theorem scBit_sample (doTx b : Bit) (s : State) :
    scBit doTx b true s =
      ((pinGet s.cfg.scIn (performAll (scBefore s.cfg (scTx s.cfg doTx b)) s)).1,
       performAll (scAfter s.cfg) (pinGet s.cfg.scIn (performAll (scBefore s.cfg (scTx s.cfg doTx b)) s)).2) := by
  cases ha : s.cfg.scCpha <;> cases doTx <;> simp [scBit, scBefore, scAfter, scTx, ha, performAll, perform]

theorem samplesIn_scBefore (c : Config) (doTx b : Bit) : samplesIn (scBefore c (scTx c doTx b)) = [] := by
  cases ha : c.scCpha <;> cases doTx <;> simp [scBefore, scTx, ha, samplesIn]

theorem samplesIn_scAfter (c : Config) : samplesIn (scAfter c) = [] := by
  cases ha : c.scCpha <;> simp [scAfter, ha, samplesIn]

theorem lastDir_scBefore (c : Config) (doTx b : Bit) (p : PinId) (h : Held Dir) :
    lastDir p h (scBefore c (scTx c doTx b)) = h := by
  cases ha : c.scCpha <;> cases doTx <;> simp [scBefore, scTx, ha, lastDir]

theorem lastDir_scAfter (c : Config) (p : PinId) (h : Held Dir) : lastDir p h (scAfter c) = h := by
  cases ha : c.scCpha <;> simp [scAfter, ha, lastDir]

theorem lastLvl_scBefore (c : Config) (doTx b : Bit) {p : PinId} (hc : p ≠ c.scClk) (ho : p ≠ c.scOut)
    (sda : List PinId) (h : Held Bit) : lastLvl sda p h (scBefore c (scTx c doTx b)) = h := by
  have hc' : c.scClk ≠ p := hc.symm
  have ho' : c.scOut ≠ p := ho.symm
  cases ha : c.scCpha <;> cases doTx <;> simp [scBefore, scTx, ha, lastLvl, hc', ho']

theorem lastLvl_scAfter (c : Config) {p : PinId} (hc : p ≠ c.scClk) (sda : List PinId) (h : Held Bit) :
    lastLvl sda p h (scAfter c) = h := by
  have hc' : c.scClk ≠ p := hc.symm
  cases ha : c.scCpha <;> simp [scAfter, ha, lastLvl, hc']

/-- A bit's events leave the line of a pin that is neither `SC_CLK` nor `SC_OUT` as it is. -/
theorem line_scBefore (doTx b : Bit) (s : State) {p : PinId} (hc : p ≠ s.cfg.scClk) (ho : p ≠ s.cfg.scOut) :
    line (performAll (scBefore s.cfg (scTx s.cfg doTx b)) s) p = line s p := by
  unfold line
  rw [performAll_dirOf, performAll_latOf, lastDir_scBefore, lastLvl_scBefore _ _ _ hc ho]

theorem line_scAfter (c : Config) (s : State) {p : PinId} (hc : p ≠ c.scClk) :
    line (performAll (scAfter c) s) p = line s p := by
  unfold line
  rw [performAll_dirOf, performAll_latOf, lastDir_scAfter, lastLvl_scAfter _ hc]

theorem line_pinGet (s : State) (p q : PinId) : line (pinGet p s).2 q = line s q := by
  unfold pinGet; split <;> rfl

/-- One received bit when the controller does not drive `SC_IN` at a known level: the environment answers. -/
theorem scRxBit_runs (doTx b : Bit) (acc : Byte) (s : State) (i : Nat) (hl : ∀ a, line s s.cfg.scIn ≠ .driven a)
    (hc : s.cfg.scIn ≠ s.cfg.scClk) (ho : s.cfg.scIn ≠ s.cfg.scOut) :
    ∃ a t, scRxBit doTx b (acc, s) i = (orBit acc i a, t)
      ∧ Runs s (scBitEvents s.cfg (scTx s.cfg doTx b) [.smp s.cfg.scIn a]) t
      ∧ t.cfg = s.cfg ∧ ∀ a, line t s.cfg.scIn ≠ .driven a := by
  have before : Runs s (scBefore s.cfg (scTx s.cfg doTx b)) _ := Runs.silent (samplesIn_scBefore ..)
  have hul := line_scBefore doTx b s hc ho
  generalize hu : performAll (scBefore s.cfg (scTx s.cfg doTx b)) s = u at before hul
  have smp := pinGet_runs (s := u) (p := s.cfg.scIn) (by rw [hul]; exact hl)
  have after : Runs (pinGet s.cfg.scIn u).2 (scAfter s.cfg) _ := Runs.silent (samplesIn_scAfter _)
  have all := (before.append smp).append after
  refine ⟨_, _, ?_, by rw [scBitEvents_split]; exact all, all.cfg, ?_⟩
  · simp only [scRxBit, scBit_sample, hu]
  · rw [line_scAfter _ _ hc, line_pinGet, hul]; exact hl

/-- One received bit when the controller drives `SC_IN` at a known level: the sample is that level, no answer is used. -/
theorem scRxBit_driven (doTx b : Bit) (acc : Byte) (s : State) (i : Nat) {a : Bit} (hl : line s s.cfg.scIn = .driven a)
    (hc : s.cfg.scIn ≠ s.cfg.scClk) (ho : s.cfg.scIn ≠ s.cfg.scOut) :
    ∃ t, scRxBit doTx b (acc, s) i = (orBit acc i a, t)
      ∧ RunsDriven s (scBitEvents s.cfg (scTx s.cfg doTx b) [.smp s.cfg.scIn a]) t
      ∧ t.cfg = s.cfg ∧ line t s.cfg.scIn = .driven a := by
  have before : RunsDriven s (scBefore s.cfg (scTx s.cfg doTx b)) _ := RunsDriven.silent (samplesIn_scBefore ..)
  generalize hu : performAll (scBefore s.cfg (scTx s.cfg doTx b)) s = u at before
  have hul : line u s.cfg.scIn = .driven a := by rw [← hu, line_scBefore _ _ _ hc ho]; exact hl
  obtain ⟨h1, h2⟩ := pinGet_runsDriven hul
  have after : RunsDriven (pinGet s.cfg.scIn u).2 (scAfter s.cfg) _ := RunsDriven.silent (samplesIn_scAfter _)
  have all := (before.append h2).append after
  refine ⟨_, ?_, by rw [scBitEvents_split]; exact all, ?_, ?_⟩
  · simp only [scRxBit, scBit_sample, hu, h1]
  · rw [performAll_cfg, pinGet_cfg, ← hu, performAll_cfg]
  · rw [line_scAfter _ _ hc, line_pinGet, hul]

/-- `SC_IN` is not one of the engine's other pins in an admitted configuration (00 R7). -/
theorem admitted_scIn {c : Config} (h : admitted c = true) : c.scIn ≠ c.scClk ∧ c.scIn ≠ c.scOut := by
  simp only [admitted, Bool.and_eq_true, decide_eq_true_eq] at h
  have hn := h.1.1.1
  simp only [Config.pins, List.nodup_append] at hn
  have := hn.2.1
  simp only [List.nodup_cons, List.mem_cons, List.not_mem_nil, or_false, not_or] at this
  exact ⟨fun e => this.2.1.1 e.symm, this.2.2.1⟩

/-! ## The commands' loops -/

theorem sendLoop_eq (v : Byte) (s : State) :
    bitOrder.foldl (fun s i => (scBit true (bitAt v i) false s).2) s = performAll (sendEvents s.cfg v) s := by
  have : ∀ bs : List Bit, ∀ u : State, u.cfg = s.cfg →
      bs.foldl (fun s b => (scBit true b false s).2) u
        = performAll (bs.flatMap fun b => scBitEvents s.cfg [.lvl s.cfg.scOut b] []) u := by
    intro bs
    induction bs with
    | nil => intro u _; rfl
    | cons b bs ih =>
      intro u hu
      rw [List.foldl_cons, List.flatMap_cons, performAll_append, scBit_send, hu]
      exact ih _ (by rw [performAll_cfg, hu])
  exact this (msbFirst v) s rfl

/-- A loop of received bits when the environment answers. -/
theorem rxLoop_runs (doTx : Bit) (g : Nat → Bit) (s : State) (hc : admitted s.cfg = true)
    (hl : ∀ a, line s s.cfg.scIn ≠ .driven a) :
    ∃ bs, bs.length = 8
      ∧ (bitOrder.foldl (fun r i => scRxBit doTx (g i) r i) (0x00#8, s)).1 = byteOfSamples bs
      ∧ Runs s ((bitOrder.zip bs).flatMap fun x => scBitEvents s.cfg (scTx s.cfg doTx (g x.1)) [.smp s.cfg.scIn x.2])
          (bitOrder.foldl (fun r i => scRxBit doTx (g i) r i) (0x00#8, s)).2 := by
  obtain ⟨bs, hlen, -, h1, h2, -⟩ := foldl_samples (R := Runs) (Q := fun _ => True)
    (P := fun t => t.cfg = s.cfg ∧ ∀ a, line t s.cfg.scIn ≠ .driven a) Runs.nil Runs.append
    (fun r i => scRxBit doTx (g i) r i) (fun i b => scBitEvents s.cfg (scTx s.cfg doTx (g i)) [.smp s.cfg.scIn b])
    (by
      rintro acc t i ⟨hcfg, ht⟩
      obtain ⟨a, u, h1, h2, h3, h4⟩ := scRxBit_runs doTx (g i) acc t i (by rwa [hcfg])
        (by rw [hcfg]; exact (admitted_scIn hc).1) (by rw [hcfg]; exact (admitted_scIn hc).2)
      rw [hcfg] at h2 h4
      exact ⟨a, u, trivial, h1, h2, h3.trans hcfg, h4⟩)
    bitOrder 0x00#8 s ⟨rfl, hl⟩
  exact ⟨bs, hlen, h1.trans (orAll_bitOrder hlen), h2⟩

/-- A loop of received bits when the controller drives `SC_IN` at a known level: every sample is that level. -/
theorem rxLoop_driven (doTx : Bit) (g : Nat → Bit) (s : State) (hc : admitted s.cfg = true) {a : Bit}
    (hl : line s s.cfg.scIn = .driven a) :
    (bitOrder.foldl (fun r i => scRxBit doTx (g i) r i) (0x00#8, s)).1 = byteOfSamples (List.replicate 8 a)
      ∧ RunsDriven s
          ((bitOrder.zip (List.replicate 8 a)).flatMap
            fun x => scBitEvents s.cfg (scTx s.cfg doTx (g x.1)) [.smp s.cfg.scIn x.2])
          (bitOrder.foldl (fun r i => scRxBit doTx (g i) r i) (0x00#8, s)).2 := by
  obtain ⟨bs, hlen, hq, h1, h2, -⟩ := foldl_samples (R := RunsDriven) (Q := fun b => b = a)
    (P := fun t => t.cfg = s.cfg ∧ line t s.cfg.scIn = .driven a) RunsDriven.nil RunsDriven.append
    (fun r i => scRxBit doTx (g i) r i) (fun i b => scBitEvents s.cfg (scTx s.cfg doTx (g i)) [.smp s.cfg.scIn b])
    (by
      rintro acc t i ⟨hcfg, ht⟩
      obtain ⟨u, h1, h2, h3, h4⟩ := scRxBit_driven doTx (g i) acc t i (a := a) (by rwa [hcfg])
        (by rw [hcfg]; exact (admitted_scIn hc).1) (by rw [hcfg]; exact (admitted_scIn hc).2)
      rw [hcfg] at h2 h4
      exact ⟨a, u, rfl, h1, h2, h3.trans hcfg, h4⟩)
    bitOrder 0x00#8 s ⟨rfl, hl⟩
  have hlen8 : bs.length = 8 := hlen
  have : bs = List.replicate 8 a := List.eq_replicate_iff.2 ⟨hlen8, hq⟩
  subst this
  exact ⟨h1.trans (orAll_bitOrder hlen8), h2⟩

/-- Either the controller drives the line at a known level, or a sample of it is the environment's (20 R33). -/
theorem line_driven_or_env (s : State) (p : PinId) : (∃ a, line s p = .driven a) ∨ ∀ a, line s p ≠ .driven a := by
  cases line s p with
  | driven a => exact .inl ⟨a, rfl⟩
  | unknown => exact .inr fun _ => by simp
  | environment => exact .inr fun _ => by simp

end Sys2Proof.Laws
end

