-- ==== Sys2Proof/Laws/TwoWire.lean ====
section
/-! SUPPORT. The two-wire engine: what each byte primitive, START-PART and STOP-PART performs, as one list of events. -/

namespace Sys2Proof.Laws

open Sys2Proof.Machine Sys2Proof.Safety

theorem samplesIn_append (es fs : List PinEvent) : samplesIn (es ++ fs) = samplesIn es ++ samplesIn fs := by
  induction es with
  | nil => rfl
  | cons e es ih => cases e <;> simp [samplesIn, ih]

theorem samplesIn_writeBits (p scl : PinId) (bs : List Bit) : samplesIn (bs.flatMap (writeBitEvents p scl)) = [] := by
  induction bs with
  | nil => rfl
  | cons b bs ih => simp [List.flatMap_cons, writeBitEvents, samplesIn, ih]

/-- The bit loop of `TW_WriteBits` (40 R62). -/
theorem writeLoop_eq (p : PinId) (v : Byte) (s : State) :
    bitOrder.foldl (fun s i => twWriteBit p (bitAt v i) s) s
      = performAll ((msbFirst v).flatMap (writeBitEvents p s.cfg.twScl)) s := rfl

/-- `TW_WriteBits` (40 R62) performs `WB(p; v; a)`, where `a` is what the environment answered, and returns `not a`. -/
theorem twWriteBits_runs (p : PinId) (v : Byte) (s : State) :
    ∃ a, (twWriteBits p v s).1 = !a ∧ Runs s (writeEvents p s.cfg.twScl v a) (twWriteBits p v s).2 := by
  have loop : Runs s ((msbFirst v).flatMap (writeBitEvents p s.cfg.twScl)) _ := Runs.silent (samplesIn_writeBits ..)
  rw [← writeLoop_eq] at loop
  generalize hs1 : bitOrder.foldl (fun s i => twWriteBit p (bitAt v i) s) s = s1 at loop
  have hc : s1.cfg = s.cfg := loop.cfg
  have pulse : Runs s1 [.dir p .input, .lvl s.cfg.twScl true, .wait] _ := Runs.silent rfl
  generalize hs2 : performAll [.dir p .input, .lvl s.cfg.twScl true, .wait] s1 = s2 at pulse
  have hdir : s2.dirOf p ≠ .is .output := by
    rw [← hs2, performAll_dirOf]; simp [lastDir]
  have smp := pinGet_runs (s := s2) (p := p) (by
    intro b; unfold line; split <;> simp_all)
  have fin : Runs (pinGet p s2).2 [.lvl s.cfg.twScl false, .dir p .output] _ := Runs.silent rfl
  have hc2 : s2.cfg = s.cfg := pulse.cfg.trans hc
  have all := ((loop.append pulse).append smp).append fin
  refine ⟨(pinGet p s2).1, ?_, ?_⟩
  · simp only [twWriteBits, hs1, ackBit]
    rw [← hs2]; simp [performAll, perform, hc]
  · have : (twWriteBits p v s).2 = performAll [.lvl s.cfg.twScl false, .dir p .output] (pinGet p s2).2 := by
      simp only [twWriteBits, hs1, pinGet_cfg]
      rw [← hs2]; simp [performAll, perform, hc]
    rw [this]
    simpa [writeEvents] using all

theorem twWriteBits_cfg (p : PinId) (v : Byte) (s : State) : (twWriteBits p v s).2.cfg = s.cfg := by
  obtain ⟨_, _, h⟩ := twWriteBits_runs p v s
  exact h.cfg

/-- `TW_ReadBits` (40 R64) performs `RB(p; bs; last)`, where `bs` is what the environment answered, and returns their byte. -/
theorem twReadBits_runs (p : PinId) (last : Bit) (s : State) :
    ∃ bs, bs.length = 8 ∧ (twReadBits p last s).1 = byteOfSamples bs
      ∧ Runs s (readEvents p s.cfg.twScl bs last) (twReadBits p last s).2 := by
  have start : Runs s [.dir p .input] (pinSetDir p .input s) := Runs.silent rfl
  obtain ⟨bs, hl, -, h1, h2, h3, _⟩ := foldl_samples (R := Runs) (Q := fun _ => True)
    (P := fun t => t.cfg = s.cfg ∧ t.dirOf p = .is .input) Runs.nil Runs.append
    (fun r i => twReadBit p r i) (fun _ b => readBitEvents p s.cfg.twScl b)
    (by
      intro acc t i ⟨hc, hd⟩
      have up : Runs t [.lvl s.cfg.twScl true, .wait] _ := Runs.silent rfl
      generalize hu : performAll [.lvl s.cfg.twScl true, .wait] t = u at up
      have hud : u.dirOf p = .is .input := by rw [← hu, performAll_dirOf]; simp [lastDir, hd]
      have smp := pinGet_runs (s := u) (p := p) (by intro b; unfold line; split <;> simp_all)
      have down : Runs (pinGet p u).2 [.lvl s.cfg.twScl false, .wait] _ := Runs.silent rfl
      have all := (up.append smp).append down
      refine ⟨(pinGet p u).1, performAll [.lvl s.cfg.twScl false, .wait] (pinGet p u).2, trivial, ?_, ?_, ?_, ?_⟩
      · simp only [twReadBit, pinGet_cfg]
        rw [← hu]; simp [performAll, perform, hc]
      · simpa [readBitEvents] using all
      · exact all.cfg.trans hc
      · rw [all.1, performAll_dirOf]; simp [lastDir, hd])
    bitOrder 0x00#8 (pinSetDir p .input s) ⟨rfl, by simp [State.dirOf, pinRead_pinWrite]⟩
  have hl8 : bs.length = 8 := hl
  refine ⟨bs, hl8, ?_, ?_⟩
  · rw [← orAll_bitOrder hl8, ← h1]; rfl
  · generalize hr : bitOrder.foldl (fun r i => twReadBit p r i) (0x00#8, pinSetDir p .input s) = r at h2 h3
    have fin : Runs r.2 [.dir p .output, .lvl p last, .lvl s.cfg.twScl true, .wait, .lvl s.cfg.twScl false, .lvl p true] _ :=
      Runs.silent rfl
    have all := (start.append h2).append fin
    have : (twReadBits p last s).2 = performAll
        [.dir p .output, .lvl p last, .lvl s.cfg.twScl true, .wait, .lvl s.cfg.twScl false, .lvl p true] r.2 := by
      simp only [twReadBits, hr]
      simp [performAll, perform, h3]
    rw [this]
    obtain ⟨b7, b6, b5, b4, b3, b2, b1, b0, rfl⟩ := eight_cases hl8
    exact all

theorem twReadBits_cfg (p : PinId) (last : Bit) (s : State) : (twReadBits p last s).2.cfg = s.cfg := by
  obtain ⟨_, _, _, h⟩ := twReadBits_runs p last s
  exact h.cfg

/-! ## START-PART and STOP-PART (40 R66, R68) -/

theorem channelPin_lt {c : Config} {ch : Nat} {p : PinId} (h : channelPin c ch = some p) : ch < c.twN :=
  (List.getElem?_eq_some_iff.1 h).1

theorem channelPin_mem {c : Config} {ch : Nat} {p : PinId} (h : channelPin c ch = some p) : p ∈ c.twSda :=
  List.mem_of_getElem? h

theorem channelPin_none {c : Config} {ch : Nat} (h : c.twN ≤ ch) : channelPin c ch = none :=
  List.getElem?_eq_none_iff.2 h

theorem channelPin_some {c : Config} {ch : Nat} (h : ch < c.twN) : ∃ p, channelPin c ch = some p :=
  ⟨_, List.getElem?_eq_some_iff.2 ⟨h, rfl⟩⟩

theorem twStartPart_runs {ch : Nat} {p : PinId} (abyte : Byte) {s : State} (h : channelPin s.cfg ch = some p) :
    ∃ a, (twStartPart ch abyte s).1 = !a
      ∧ Runs s (startEvents p s.cfg.twScl abyte a) (twStartPart ch abyte s).2 := by
  have hn : s.cfg.twN ≠ 0 := Nat.ne_of_gt (Nat.lt_of_le_of_lt (Nat.zero_le _) (channelPin_lt h))
  have start : Runs s [.bcast false, .lvl s.cfg.twScl false] (pinSet s.cfg.twScl false (bcastData false s)) :=
    Runs.silent rfl
  obtain ⟨a, h1, h2⟩ := twWriteBits_runs p abyte (pinSet s.cfg.twScl false (bcastData false s))
  have : twStartPart ch abyte s = twWriteBits p abyte (pinSet s.cfg.twScl false (bcastData false s)) := by
    simp [twStartPart, hn, h]
  rw [this]
  exact ⟨a, h1, start.append h2⟩

/-- The terminal case with a channel index out of range: only the broadcast (40 R60 (b)). -/
theorem twStartPart_outOfRange {ch : Nat} (abyte : Byte) {s : State} (hn : s.cfg.twN ≠ 0) (h : s.cfg.twN ≤ ch) :
    twStartPart ch abyte s = (false, performAll [.bcast false] s) := by
  simp [twStartPart, hn, channelPin_none h, performAll, perform]

theorem twStartPart_empty {ch : Nat} (abyte : Byte) {s : State} (hn : s.cfg.twN = 0) :
    twStartPart ch abyte s = (false, s) := by
  simp [twStartPart, hn]

theorem twStopPart_eq {ch : Nat} {p : PinId} {s : State} (h : channelPin s.cfg ch = some p) :
    twStopPart ch s = performAll (stopEvents p s.cfg.twScl) s := by
  have hn : s.cfg.twN ≠ 0 := Nat.ne_of_gt (Nat.lt_of_le_of_lt (Nat.zero_le _) (channelPin_lt h))
  simp [twStopPart, hn, h, twStopChannel, performAll, perform, stopEvents]

theorem twStopPart_outOfRange {ch : Nat} {s : State} (hn : s.cfg.twN ≠ 0) (h : s.cfg.twN ≤ ch) :
    twStopPart ch s = performAll [.bcast true, .wait] s := by
  simp [twStopPart, hn, channelPin_none h, performAll, perform]

theorem twStopPart_empty {ch : Nat} {s : State} (hn : s.cfg.twN = 0) : twStopPart ch s = s := by
  simp [twStopPart, hn]

/-! ## TW.INIT (40 R65) -/

theorem initDirs_eq (ps : List PinId) (s : State) :
    ps.foldl (fun s p => pinSetDir p .output s) s = performAll (ps.map fun p => .dir p .output) s := by
  induction ps generalizing s with
  | nil => rfl
  | cons p ps ih => exact ih _

theorem execTwInit_eq (outer : Bit) {s : State} (hn : s.cfg.twN ≠ 0) :
    execTwInit outer s = .next (writeRes .none (performAll (initEvents s.cfg outer) s)) := by
  simp only [execTwInit, hn, if_false, initDirs_eq, initEvents, performAll_append]
  cases outer <;> simp [performAll, perform, twInitClock, performAll_cfg]

end Sys2Proof.Laws
end

