-- ==== Sys2Proof/Laws/Commands.lean ====
section
/-! SUPPORT. The one inversion lemma of exec: every command, in every state, performs the events of its table row and writes
the result its samples give. -/

namespace Sys2Proof.Laws

open Sys2Proof.Machine Sys2Proof.Safety

/-- `t` is `s` after the events `es`, but for the answers used. -/
def Performs (s : State) (es : List PinEvent) (t : State) : Prop := ∃ a, t = { performAll es s with answers := a }

theorem Runs.performs {s t : State} {es : List PinEvent} (h : Runs s es t) : Performs s es t := ⟨t.answers, by rw [h.1]⟩

theorem RunsDriven.performs {s t : State} {es : List PinEvent} (h : RunsDriven s es t) : Performs s es t := ⟨_, h⟩

theorem Performs.append {s t u : State} {es fs : List PinEvent} (h : Performs s es t) (k : Performs t fs u) :
    Performs s (es ++ fs) u := by
  obtain ⟨a, rfl⟩ := h
  obtain ⟨b, rfl⟩ := k
  exact ⟨b, by rw [performAll_withAnswers, performAll_append]⟩

theorem Performs.nil (s : State) : Performs s [] s := ⟨s.answers, rfl⟩

theorem Performs.self (s : State) (es : List PinEvent) : Performs s es (performAll es s) := ⟨_, rfl⟩

theorem pinGet_performs (p : PinId) (s : State) : Performs s [.smp p (pinGet p s).1] (pinGet p s).2 := by
  rcases line_driven_or_env s p with ⟨a, h⟩ | h
  · obtain ⟨h1, h2⟩ := pinGet_runsDriven h
    rw [h1]; exact h2.performs
  · exact (pinGet_runs h).performs

section Fields
variable {s t : State} {es : List PinEvent} (h : Performs s es t)
include h

theorem Performs.cfg : t.cfg = s.cfg := by obtain ⟨a, rfl⟩ := h; exact performAll_cfg es s
theorem Performs.prog : t.prog = s.prog := by obtain ⟨a, rfl⟩ := h; exact performAll_prog es s
theorem Performs.res : t.res = s.res := by obtain ⟨a, rfl⟩ := h; exact performAll_res es s
theorem Performs.flt : t.flt = s.flt := by obtain ⟨a, rfl⟩ := h; exact performAll_flt es s
theorem Performs.cp : t.cp = s.cp := by obtain ⟨a, rfl⟩ := h; exact performAll_cp es s
theorem Performs.trace : t.trace = s.trace ++ es.map .pin := by obtain ⟨a, rfl⟩ := h; exact performAll_trace es s
theorem Performs.dirOf (p : PinId) : t.dirOf p = lastDir p (s.dirOf p) es := by
  obtain ⟨a, rfl⟩ := h; exact performAll_dirOf es s p
theorem Performs.latOf (p : PinId) : t.latOf p = lastLvl s.cfg.twSda p (s.latOf p) es := by
  obtain ⟨a, rfl⟩ := h; exact performAll_latOf es s p
theorem Performs.puOf (p : PinId) : t.puOf p = lastPull p (s.puOf p) es := by
  obtain ⟨a, rfl⟩ := h; exact performAll_puOf es s p
theorem Performs.dirWf (k : pinFileWf s.dir) : pinFileWf t.dir := by
  obtain ⟨a, rfl⟩ := h; exact performAll_dirWf es s k
theorem Performs.latWf (k : pinFileWf s.lat) : pinFileWf t.lat := by
  obtain ⟨a, rfl⟩ := h; exact performAll_latWf es s k
theorem Performs.puWf (k : pinFileWf s.pu) : pinFileWf t.pu := by
  obtain ⟨a, rfl⟩ := h; exact performAll_puWf es s k

end Fields

/-- A loop of received bits in any state. -/
theorem rxLoop_performs (doTx : Bit) (g : Nat → Bit) (s : State) :
    ∃ bs, bs.length = 8
      ∧ (bitOrder.foldl (fun r i => scRxBit doTx (g i) r i) (0x00#8, s)).1 = byteOfSamples bs
      ∧ Performs s ((bitOrder.zip bs).flatMap fun x => scBitEvents s.cfg (scTx s.cfg doTx (g x.1)) [.smp s.cfg.scIn x.2])
          (bitOrder.foldl (fun r i => scRxBit doTx (g i) r i) (0x00#8, s)).2 := by
  obtain ⟨bs, hlen, -, h1, h2, -⟩ := foldl_samples (R := Performs) (Q := fun _ => True)
    (P := fun t => t.cfg = s.cfg) Performs.nil Performs.append
    (fun r i => scRxBit doTx (g i) r i) (fun i b => scBitEvents s.cfg (scTx s.cfg doTx (g i)) [.smp s.cfg.scIn b])
    (by
      intro acc t i hcfg
      have all := ((Performs.self t (scBefore t.cfg (scTx t.cfg doTx (g i)))).append
        (pinGet_performs t.cfg.scIn _)).append (Performs.self _ (scAfter t.cfg))
      rw [← scBitEvents_split] at all
      have hc := all.cfg
      rw [hcfg] at all hc
      refine ⟨_, _, trivial, ?_, all, hc⟩
      simp only [scRxBit, scBit_sample, hcfg])
    bitOrder 0x00#8 s rfl
  exact ⟨bs, hlen, h1.trans (orAll_bitOrder hlen), h2⟩

theorem receiveEvents_eq (c : Config) {bs : List Bit} (h : bs.length = 8) :
    ((bitOrder.zip bs).flatMap fun x => scBitEvents c (scTx c false false) [.smp c.scIn x.2]) = receiveEvents c bs := by
  obtain ⟨b7, b6, b5, b4, b3, b2, b1, b0, rfl⟩ := eight_cases h
  rfl

theorem transferEvents_eq (c : Config) (v : Byte) {bs : List Bit} (h : bs.length = 8) :
    ((bitOrder.zip bs).flatMap fun x => scBitEvents c (scTx c true (bitAt v x.1)) [.smp c.scIn x.2])
      = transferEvents c v bs := by
  obtain ⟨b7, b6, b5, b4, b3, b2, b1, b0, rfl⟩ := eight_cases h
  rfl

/-- The samples `bs` of a command that takes `s` to `t` by the events `es`: every one the environment's answer for a two-wire
command; for a serial-clock command so if the controller does not drive `SC_IN` at a known level, else that level (20 R33). -/
def Sampled (i : Instr) (s : State) (bs : List Bit) (es : List PinEvent) (t : State) : Prop :=
  (isTwoWire i = true → Runs s es t)
  ∧ (admitted s.cfg = true → (∀ a, line s s.cfg.scIn ≠ .driven a) → Runs s es t)
  ∧ (isTwoWire i = false → admitted s.cfg = true → ∀ a, line s s.cfg.scIn = .driven a →
      bs = List.replicate bs.length a ∧ t.answers = s.answers)

theorem Sampled.ofRuns {i : Instr} {s t : State} {bs : List Bit} {es : List PinEvent} (hi : isTwoWire i = true)
    (h : Runs s es t) : Sampled i s bs es t :=
  ⟨fun _ => h, fun _ _ => h, fun hf => by simp [hi] at hf⟩

/-- The loop of received bits of a serial-clock command, with its samples. -/
theorem rxLoop_sampled (i : Instr) (hi : isTwoWire i = false) (doTx : Bit) (g : Nat → Bit) (s : State) :
    ∃ bs, bs.length = 8
      ∧ (bitOrder.foldl (fun r i => scRxBit doTx (g i) r i) (0x00#8, s)).1 = byteOfSamples bs
      ∧ Performs s ((bitOrder.zip bs).flatMap fun x => scBitEvents s.cfg (scTx s.cfg doTx (g x.1)) [.smp s.cfg.scIn x.2])
          (bitOrder.foldl (fun r i => scRxBit doTx (g i) r i) (0x00#8, s)).2
      ∧ Sampled i s bs
          ((bitOrder.zip bs).flatMap fun x => scBitEvents s.cfg (scTx s.cfg doTx (g x.1)) [.smp s.cfg.scIn x.2])
          (bitOrder.foldl (fun r i => scRxBit doTx (g i) r i) (0x00#8, s)).2 := by
  cases hc : admitted s.cfg with
  | false =>
    obtain ⟨bs, h1, h2, h3⟩ := rxLoop_performs doTx g s
    exact ⟨bs, h1, h2, h3, by simp [Sampled, hi, hc]⟩
  | true =>
    rcases line_driven_or_env s s.cfg.scIn with ⟨a, hl⟩ | hl
    · obtain ⟨h1, h2⟩ := rxLoop_driven doTx g s hc hl
      refine ⟨List.replicate 8 a, rfl, h1, h2.performs, by simp [hi], fun _ hn => absurd hl (hn a), fun _ _ b hb => ?_⟩
      have : a = b := by rw [hl] at hb; simpa using hb
      subst this
      exact ⟨by simp, by rw [h2]⟩
    · obtain ⟨bs, h1, h2, h3⟩ := rxLoop_runs doTx g s hc hl
      exact ⟨bs, h1, h2, h3.performs, by simp [hi], fun _ _ => h3, fun _ _ a ha => absurd ha (hl a)⟩

/-- A silent serial-clock command. -/
theorem Sampled.silent {i : Instr} {s : State} {es : List PinEvent} (h : samplesIn es = []) :
    Sampled i s [] es (performAll es s) :=
  ⟨fun _ => Runs.silent h, fun _ _ => Runs.silent h, fun _ _ _ _ => ⟨rfl, by rw [performAll_answers, h]; rfl⟩⟩

theorem samplesIn_sendEvents (c : Config) (v : Byte) : samplesIn (sendEvents c v) = [] := by
  rw [sendEvents]
  induction msbFirst v with
  | nil => rfl
  | cons b bs ih =>
    rw [List.flatMap_cons, samplesIn_append, ih, List.append_nil]
    cases hp : c.scCpol <;> cases ha : c.scCpha <;> simp [scBitEvents, hp, ha, samplesIn]

/-- Every command, in every state, answers a next state: it performs the events of its row on its samples `bs` and writes the
result they give. -/
theorem exec_performs (i : Instr) (s : State) :
    ∃ bs t, bs.length = sampleCount s.cfg i
      ∧ exec i s = .next (writeRes (commandResult s.cfg i bs) t)
      ∧ Performs s (commandEvents s.cfg i bs) t
      ∧ Sampled i s bs (commandEvents s.cfg i bs) t := by
  have channel : ∀ ch, (∃ p, channelPin s.cfg ch = some p ∧ ch < s.cfg.twN)
      ∨ channelPin s.cfg ch = none ∧ ¬ ch < s.cfg.twN := by
    intro ch
    cases h : channelPin s.cfg ch with
    | some p => exact .inl ⟨p, rfl, channelPin_lt h⟩
    | none => exact .inr ⟨rfl, fun hl => by obtain ⟨p, hp⟩ := channelPin_some hl; simp [h] at hp⟩
  have close : ∀ (bs : List Bit) (t : State), isTwoWire i = true → bs.length = sampleCount s.cfg i →
      exec i s = .next (writeRes (commandResult s.cfg i bs) t) → Runs s (commandEvents s.cfg i bs) t →
      ∃ bs t, bs.length = sampleCount s.cfg i ∧ exec i s = .next (writeRes (commandResult s.cfg i bs) t)
        ∧ Performs s (commandEvents s.cfg i bs) t ∧ Sampled i s bs (commandEvents s.cfg i bs) t :=
    fun bs t hi hl he hr => ⟨bs, t, hl, he, hr.performs, .ofRuns hi hr⟩
  cases i with
  | twInit outer =>
    by_cases hn : s.cfg.twN = 0
    · exact close [] s rfl rfl (by simp [exec, execTwInit, hn, commandResult]) (by simp [commandEvents, hn, Runs.nil])
    · refine close [] _ rfl rfl (execTwInit_eq outer hn) ?_
      simp only [commandEvents, hn, if_false]
      refine Runs.silent ?_
      have : samplesIn (s.cfg.twSda.map fun p => .dir p .output) = [] := by
        induction s.cfg.twSda with
        | nil => rfl
        | cons p ps ih => simpa [samplesIn] using ih
      rw [initEvents, samplesIn_append, samplesIn_append, this]
      cases outer <;> rfl
  | twStart ch abyte =>
    rcases channel ch with ⟨p, hp, hl⟩ | ⟨hp, hl⟩
    · obtain ⟨a, h1, h2⟩ := twStartPart_runs abyte hp
      exact close [a] _ rfl (by simp [sampleCount, hl])
        (by simp [exec, execTwStart, commandResult, hl, h1]; rfl) (by simpa [commandEvents, channelEvents, hp] using h2)
    · by_cases hn : s.cfg.twN = 0
      · exact close [] s rfl (by simp [sampleCount, hl])
          (by simp [exec, execTwStart, twStartPart_empty abyte hn, commandResult, hl])
          (by simp [commandEvents, channelEvents, hp, hn, Runs.nil])
      · exact close [] (performAll [.bcast false] s) rfl (by simp [sampleCount, hl])
          (by simp [exec, execTwStart, twStartPart_outOfRange abyte hn (Nat.le_of_not_lt hl), commandResult, hl])
          (by simpa [commandEvents, channelEvents, hp, hn] using Runs.silent rfl)
  | twRestart ch abyte =>
    rcases channel ch with ⟨p, hp, hl⟩ | ⟨hp, hl⟩
    · have start : Runs s [.lvl s.cfg.twScl true, .lvl p false, .lvl s.cfg.twScl false] _ := Runs.silent rfl
      obtain ⟨a, h1, h2⟩ := twWriteBits_runs p abyte
        (performAll [.lvl s.cfg.twScl true, .lvl p false, .lvl s.cfg.twScl false] s)
      have hc : (performAll [.lvl s.cfg.twScl true, .lvl p false, .lvl s.cfg.twScl false] s).cfg = s.cfg := performAll_cfg ..
      rw [hc] at h2
      refine close [a] _ rfl (by simp [sampleCount, hl]) ?_
        (by simpa [commandEvents, channelEvents, hp, restartEvents] using start.append h2)
      simp only [exec, execTwRestart, hp, commandResult, hl, if_true]
      simp only [List.getD_cons_zero, ← h1]
      rfl
    · exact close [] s rfl (by simp [sampleCount, hl]) (by simp [exec, execTwRestart, hp, commandResult, hl])
        (by simp [commandEvents, channelEvents, hp, Runs.nil])
  | twStop ch =>
    rcases channel ch with ⟨p, hp, hl⟩ | ⟨hp, hl⟩
    · exact close [] (performAll (stopEvents p s.cfg.twScl) s) rfl rfl
        (by simp [exec, execTwStop, twStopPart_eq hp, commandResult])
        (by simpa [commandEvents, channelEvents, hp] using Runs.silent rfl)
    · by_cases hn : s.cfg.twN = 0
      · exact close [] s rfl rfl (by simp [exec, execTwStop, twStopPart_empty hn, commandResult])
          (by simp [commandEvents, channelEvents, hp, hn, Runs.nil])
      · exact close [] (performAll [.bcast true, .wait] s) rfl rfl
          (by simp [exec, execTwStop, twStopPart_outOfRange hn (Nat.le_of_not_lt hl), commandResult])
          (by simpa [commandEvents, channelEvents, hp, hn] using Runs.silent rfl)
  | twWrite ch v =>
    rcases channel ch with ⟨p, hp, hl⟩ | ⟨hp, hl⟩
    · obtain ⟨a, h1, h2⟩ := twWriteBits_runs p v s
      exact close [a] _ rfl (by simp [sampleCount, hl])
        (by simp [exec, execTwWrite, hp, commandResult, hl, h1]; rfl)
        (by simpa [commandEvents, channelEvents, hp] using h2)
    · exact close [] s rfl (by simp [sampleCount, hl]) (by simp [exec, execTwWrite, hp, commandResult, hl])
        (by simp [commandEvents, channelEvents, hp, Runs.nil])
  | twRead ch last =>
    rcases channel ch with ⟨p, hp, hl⟩ | ⟨hp, hl⟩
    · obtain ⟨bs, h0, h1, h2⟩ := twReadBits_runs p last s
      exact close bs _ rfl (by simp [sampleCount, hl, h0])
        (by simp [exec, execTwRead, hp, commandResult, hl, h1]; rfl)
        (by simpa [commandEvents, channelEvents, hp] using h2)
    · exact close [] s rfl (by simp [sampleCount, hl]) (by simp [exec, execTwRead, hp, commandResult, hl])
        (by simp [commandEvents, channelEvents, hp, Runs.nil])
  | twWritebyte ch addr7 v =>
    rcases channel ch with ⟨p, hp, hl⟩ | ⟨hp, hl⟩
    · obtain ⟨a1, h1, h2⟩ := twStartPart_runs (addressByte addr7 false) hp
      obtain ⟨a2, h3, h4⟩ := twWriteBits_runs p v (twStartPart ch (addressByte addr7 false) s).2
      have hc := h2.cfg
      have hc2 := h4.cfg.trans hc
      rw [hc] at h4
      have hstop := twStopPart_eq (s := (twWriteBits p v (twStartPart ch (addressByte addr7 false) s).2).2) (ch := ch)
        (p := p) (by rw [hc2]; exact hp)
      rw [hc2] at hstop
      refine close [a1, a2] _ rfl (by simp [sampleCount, hl]) ?_
        (by simpa [commandEvents, channelEvents, hp, List.append_assoc] using
              (h2.append h4).append (Runs.silent (es := stopEvents p s.cfg.twScl) rfl))
      simp only [exec, execTwWritebyte, hc, hp, commandResult, hl, if_true]
      rw [hstop, h1, h3]
      simp [bothAck]
    · by_cases hn : s.cfg.twN = 0
      · exact close [] s rfl (by simp [sampleCount, hl])
          (by simp [exec, execTwWritebyte, twStartPart_empty _ hn, hp, twStopPart_empty hn, bothAck, commandResult, hl])
          (by simp [commandEvents, channelEvents, hp, hn, Runs.nil])
      · have hstop := twStopPart_outOfRange (s := performAll [.bcast false] s) (ch := ch)
          (by rwa [performAll_cfg]) (by rw [performAll_cfg]; exact Nat.le_of_not_lt hl)
        exact close [] (performAll [.bcast true, .wait] (performAll [.bcast false] s)) rfl (by simp [sampleCount, hl])
          (by simp [exec, execTwWritebyte, twStartPart_outOfRange _ hn (Nat.le_of_not_lt hl), performAll_cfg, hp, hstop,
                bothAck, commandResult, hl])
          (by simpa [commandEvents, channelEvents, hp, hn, performAll] using
                Runs.silent (s := s) (es := [.bcast false, .bcast true, .wait]) rfl)
  | twReadbyte ch addr7 =>
    rcases channel ch with ⟨p, hp, hl⟩ | ⟨hp, hl⟩
    · obtain ⟨a1, h1, h2⟩ := twStartPart_runs (addressByte addr7 true) hp
      obtain ⟨bs, h0, h3, h4⟩ := twReadBits_runs p true (twStartPart ch (addressByte addr7 true) s).2
      have hc := h2.cfg
      have hc2 := h4.cfg.trans hc
      rw [hc] at h4
      have hstop := twStopPart_eq (s := (twReadBits p true (twStartPart ch (addressByte addr7 true) s).2).2) (ch := ch)
        (p := p) (by rw [hc2]; exact hp)
      rw [hc2] at hstop
      refine close (a1 :: bs) _ rfl (by simp [sampleCount, hl, h0]) ?_
        (by simpa [commandEvents, channelEvents, hp, List.append_assoc] using
              (h2.append h4).append (Runs.silent (es := stopEvents p s.cfg.twScl) rfl))
      simp only [exec, execTwReadbyte, hc, hp, commandResult, hl, if_true]
      rw [hstop, h3]
      rfl
    · by_cases hn : s.cfg.twN = 0
      · exact close [] s rfl (by simp [sampleCount, hl])
          (by simp [exec, execTwReadbyte, twStartPart_empty _ hn, hp, twStopPart_empty hn, commandResult, hl])
          (by simp [commandEvents, channelEvents, hp, hn, Runs.nil])
      · have hstop := twStopPart_outOfRange (s := performAll [.bcast false] s) (ch := ch)
          (by rwa [performAll_cfg]) (by rw [performAll_cfg]; exact Nat.le_of_not_lt hl)
        exact close [] (performAll [.bcast true, .wait] (performAll [.bcast false] s)) rfl (by simp [sampleCount, hl])
          (by simp [exec, execTwReadbyte, twStartPart_outOfRange _ hn (Nat.le_of_not_lt hl), performAll_cfg, hp, hstop,
                commandResult, hl])
          (by simpa [commandEvents, channelEvents, hp, hn, performAll] using
                Runs.silent (s := s) (es := [.bcast false, .bcast true, .wait]) rfl)
  | scBegin =>
    exact ⟨[], performAll (beginEvents s.cfg) s, rfl, rfl, Performs.self .., Sampled.silent rfl⟩
  | scSend v =>
    refine ⟨[], performAll (sendEvents s.cfg v) s, rfl, ?_, Performs.self .., Sampled.silent (samplesIn_sendEvents ..)⟩
    simp only [exec, execScSend, sendLoop_eq, commandResult]
  | scReceive =>
    obtain ⟨bs, h0, h1, h2, h3⟩ := rxLoop_sampled .scReceive rfl false (fun _ => false) s
    rw [receiveEvents_eq s.cfg h0] at h2 h3
    refine ⟨bs, _, h0, ?_, h2, h3⟩
    simp only [exec, execScReceive, h1, commandResult]
  | scTransfer v =>
    obtain ⟨bs, h0, h1, h2, h3⟩ := rxLoop_sampled (.scTransfer v) rfl true (bitAt v) s
    rw [transferEvents_eq s.cfg v h0] at h2 h3
    refine ⟨bs, _, h0, ?_, h2, h3⟩
    simp only [exec, execScTransfer, h1, commandResult]

end Sys2Proof.Laws
end

