-- ==== Sys2Proof/Laws/Decode.lean ====
section
/-! SUPPORT. The encoder's fields read back, and no encoded word has a bit its row masks. -/

namespace Sys2Proof

section Fields
variable (op : BitVec 4) (f : Bit) (ch : BitVec 8) (a d : Byte)

theorem getLsbD_encodeFields (i : Nat) (h : i < 32) :
    (encodeFields op f ch a d).getLsbD i =
      if i < 8 then d.getLsbD i
      else if i < 16 then a.getLsbD (i - 8)
      else if i < 24 then ch.getLsbD (i - 16)
      else if i = 24 then f
      else if i < 28 then false
      else op.getLsbD (i - 28) := by
  simp only [encodeFields, BitVec.getLsbD_or, BitVec.getLsbD_shiftLeft, BitVec.getLsbD_setWidth]
  interval_cases i <;> simp [BitVec.getLsbD_of_ge]

theorem opField_encodeFields : opField (encodeFields op f ch a d) = op := by
  ext i h
  simp only [opField, BitVec.getElem_extractLsb']
  rw [getLsbD_encodeFields _ _ _ _ _ _ (by omega)]
  interval_cases i <;> simp [BitVec.getLsbD_eq_getElem]

theorem flagField_encodeFields : flagField (encodeFields op f ch a d) = f := by
  rw [flagField, getLsbD_encodeFields _ _ _ _ _ _ (by omega)]; simp

theorem chField_encodeFields : chField (encodeFields op f ch a d) = ch := by
  ext i h
  simp only [chField, BitVec.getElem_extractLsb']
  rw [getLsbD_encodeFields _ _ _ _ _ _ (by omega)]
  interval_cases i <;> simp [BitVec.getLsbD_eq_getElem]

theorem addrField_encodeFields : addrField (encodeFields op f ch a d) = a := by
  ext i h
  simp only [addrField, BitVec.getElem_extractLsb']
  rw [getLsbD_encodeFields _ _ _ _ _ _ (by omega)]
  interval_cases i <;> simp [BitVec.getLsbD_eq_getElem]

theorem dataField_encodeFields : dataField (encodeFields op f ch a d) = d := by
  ext i h
  simp only [dataField, BitVec.getElem_extractLsb']
  rw [getLsbD_encodeFields _ _ _ _ _ _ (by omega)]
  interval_cases i <;> simp [BitVec.getLsbD_eq_getElem]

theorem addr7Field_encodeFields (b : BitVec 7) : addr7Field (encodeFields op f ch (b.setWidth 8) d) = b := by
  ext i h
  simp only [addr7Field, BitVec.getElem_extractLsb']
  rw [getLsbD_encodeFields _ _ _ _ _ _ (by omega)]
  interval_cases i <;> simp [BitVec.getLsbD_eq_getElem]

end Fields

theorem opField_and (v w : Word) : opField (v &&& w) = opField v &&& opField w := by
  ext i h
  simp [opField]

/-- A row's mask holds all of `OP`: a word that matches the row has the row's opcode (30 R48). -/
theorem opField_of_matches {r : Row} (hr : r ∈ rows) {w : Word} (h : r.matches w = true) :
    opField w = opField r.matchBits := by
  have hm : ∀ r ∈ rows, opField r.mask = BitVec.allOnes 4 := by decide
  have := congrArg opField (of_decide_eq_true h)
  rwa [opField_and, hm r hr, BitVec.and_allOnes] at this

/-- The twelve rows have twelve opcodes (30 R49). -/
theorem row_eq_of_opField {r q : Row} (hr : r ∈ rows) (hq : q ∈ rows)
    (h : opField r.matchBits = opField q.matchBits) : r = q := by
  have : ∀ r ∈ rows, ∀ q ∈ rows, opField r.matchBits = opField q.matchBits → r = q := by decide
  exact this r hr q hq h

/-- A channel index in range survives its field. -/
theorem toNat_chBits {ch : Nat} (h : ch < 256) : (BitVec.ofNat 8 ch).toNat = ch := by
  simp [BitVec.toNat_ofNat, Nat.mod_eq_of_lt h]

/-- Two words with the same five fields and reserved bits 0 are equal (30 R46). -/
theorem encodeFields_fields (w : Word) (h : w.extractLsb' 25 3 = 0#3) :
    encodeFields (opField w) (flagField w) (chField w) (addrField w) (dataField w) = w := by
  apply BitVec.eq_of_getLsbD_eq
  intro i hi
  have hr : ∀ k, k < 3 → w.getLsbD (25 + k) = false := by
    intro k hk
    have := congrArg (fun v => v.getLsbD k) h
    simpa [BitVec.getLsbD_extractLsb', hk] using this
  rw [getLsbD_encodeFields _ _ _ _ _ _ hi]
  have h25 := hr 0 (by omega)
  have h26 := hr 1 (by omega)
  have h27 := hr 2 (by omega)
  simp only [opField, flagField, chField, addrField, dataField, BitVec.getLsbD_extractLsb']
  interval_cases i <;> simp_all

end Sys2Proof
end

