-- ==== Sys2Proof/Laws/PerInstr.lean ====
section
/-! SUPPORT. The family OwnRow: every instruction's word matches its own row of the opcode map and no other (spec/30_encoding.md R49). -/

namespace Sys2Proof.Laws.OwnRow

/-- The encoded word matches a row of the table exactly if the row is the instruction's own. -/
def Statement (i : Instr) : Prop := ∀ r ∈ rows, r.matches (encode i) = true ↔ r = i.row

/-- It is enough that the word matches its own row: any other row has another opcode. -/
theorem of_matches {i : Instr} (hm : i.row ∈ rows) (h : i.row.matches (encode i) = true) : Statement i := by
  intro r hr
  refine ⟨fun hr' => row_eq_of_opField hr hm ?_, fun e => e ▸ h⟩
  rw [← opField_of_matches hr hr', ← opField_of_matches hm h]

/-- A word matches a row if they agree on every bit of the mask. -/
theorem matches_of_bits {r : Row} {w : Word}
    (h : ∀ k, k < 32 → (w.getLsbD k && r.mask.getLsbD k) = r.matchBits.getLsbD k) : r.matches w = true := by
  refine decide_eq_true (BitVec.eq_of_getLsbD_eq fun k hk => ?_)
  rw [BitVec.getLsbD_and]
  exact h k hk

theorem twInit (outer : Bit) : Statement (.twInit outer) :=
  of_matches (by simp [Instr.row, rows]) <| matches_of_bits fun k hk => by
    simp only [encode, getLsbD_encodeFields _ _ _ _ _ k hk, Instr.row, rowTwInit]
    interval_cases k <;> simp

theorem twStart (ch : Nat) (abyte : Byte) : Statement (.twStart ch abyte) :=
  of_matches (by simp [Instr.row, rows]) <| matches_of_bits fun k hk => by
    simp only [encode, getLsbD_encodeFields _ _ _ _ _ k hk, Instr.row, rowTwStart]
    interval_cases k <;> simp

theorem twRestart (ch : Nat) (abyte : Byte) : Statement (.twRestart ch abyte) :=
  of_matches (by simp [Instr.row, rows]) <| matches_of_bits fun k hk => by
    simp only [encode, getLsbD_encodeFields _ _ _ _ _ k hk, Instr.row, rowTwRestart]
    interval_cases k <;> simp

theorem twStop (ch : Nat) : Statement (.twStop ch) :=
  of_matches (by simp [Instr.row, rows]) <| matches_of_bits fun k hk => by
    simp only [encode, getLsbD_encodeFields _ _ _ _ _ k hk, Instr.row, rowTwStop]
    interval_cases k <;> simp

theorem twWrite (ch : Nat) (v : Byte) : Statement (.twWrite ch v) :=
  of_matches (by simp [Instr.row, rows]) <| matches_of_bits fun k hk => by
    simp only [encode, getLsbD_encodeFields _ _ _ _ _ k hk, Instr.row, rowTwWrite]
    interval_cases k <;> simp

theorem twRead (ch : Nat) (last : Bit) : Statement (.twRead ch last) :=
  of_matches (by simp [Instr.row, rows]) <| matches_of_bits fun k hk => by
    simp only [encode, getLsbD_encodeFields _ _ _ _ _ k hk, Instr.row, rowTwRead]
    interval_cases k <;> simp

theorem twWritebyte (ch : Nat) (addr7 : BitVec 7) (v : Byte) : Statement (.twWritebyte ch addr7 v) :=
  of_matches (by simp [Instr.row, rows]) <| matches_of_bits fun k hk => by
    simp only [encode, getLsbD_encodeFields _ _ _ _ _ k hk, Instr.row, rowTwWritebyte]
    interval_cases k <;> simp

theorem twReadbyte (ch : Nat) (addr7 : BitVec 7) : Statement (.twReadbyte ch addr7) :=
  of_matches (by simp [Instr.row, rows]) <| matches_of_bits fun k hk => by
    simp only [encode, getLsbD_encodeFields _ _ _ _ _ k hk, Instr.row, rowTwReadbyte]
    interval_cases k <;> simp

theorem scBegin : Statement (.scBegin) :=
  of_matches (by simp [Instr.row, rows]) <| matches_of_bits fun k hk => by
    simp only [encode, getLsbD_encodeFields _ _ _ _ _ k hk, Instr.row, rowScBegin]
    interval_cases k <;> simp

theorem scSend (v : Byte) : Statement (.scSend v) :=
  of_matches (by simp [Instr.row, rows]) <| matches_of_bits fun k hk => by
    simp only [encode, getLsbD_encodeFields _ _ _ _ _ k hk, Instr.row, rowScSend]
    interval_cases k <;> simp

theorem scReceive : Statement (.scReceive) :=
  of_matches (by simp [Instr.row, rows]) <| matches_of_bits fun k hk => by
    simp only [encode, getLsbD_encodeFields _ _ _ _ _ k hk, Instr.row, rowScReceive]
    interval_cases k <;> simp

theorem scTransfer (v : Byte) : Statement (.scTransfer v) :=
  of_matches (by simp [Instr.row, rows]) <| matches_of_bits fun k hk => by
    simp only [encode, getLsbD_encodeFields _ _ _ _ _ k hk, Instr.row, rowScTransfer]
    interval_cases k <;> simp

end Sys2Proof.Laws.OwnRow
end

