-- ==== Sys2Proof/Tests/Slice0.lean ====
section
/-! SUPPORT. The model's own tests. Every expected value is taken from spec/95_test_vectors.md (the vector's name stands in the
comment) or written out from the encodings of spec/30_encoding.md; then one witness for the hypotheses of every statement. -/

namespace Sys2Proof.Tests

open Sys2Proof.Machine Sys2Proof.Safety

set_option maxRecDepth 4000

/-! ## States -/

/-- `TW_N = 1`: SDA0 is pin 0, SCL pin 1, CLK pin 2, IN pin 3, OUT pin 4. -/
def oneChannel : Config := { Config.reference with twSda := [0], twScl := 1, scClk := 2, scIn := 3, scOut := 4 }

/-- `TW_N = 0`. -/
def noChannel : Config := { Config.reference with twSda := [] }

/-- The reference build in another serial-clock mode. -/
def mode (cpol cpha pullup : Bit) : Config :=
  { Config.reference with scCpol := cpol, scCpha := cpha, scPullup := pullup }

/-- An idle bus, `TW_N = 1` (95, Conventions). -/
def idle1 (answers : List Bit) : State :=
  { State.resetWith oneChannel [] answers with
    dir := [(0, .output), (1, .output)], lat := [(0, true), (1, true)] }

/-- An idle bus, `TW_N = 2`. -/
def idle2 (answers : List Bit) : State :=
  { State.resetWith Config.reference [] answers with
    dir := [(0, .output), (1, .output), (2, .output)], lat := [(0, true), (1, true), (2, true)] }

/-- The reference build with a one-word program. -/
def ready (w : Word) : State := State.resetWith Config.reference [w] []

/-- The state after commands, if they all answer one. -/
def after (is : List Instr) (s : State) : Option State :=
  match execAll is s with
  | .next t => some t
  | .fault _ => none
  | .refused _ => none

/-- The pin events, the result and the two latches a vector names. -/
def seen (p q : PinId) (t : State) : List PinEvent × Result × Held Bit × Held Bit :=
  (pinEvents t.trace, t.res, t.latOf p, t.latOf q)

/-! ## Well-formedness: each check refuses an ill-formed term -/

theorem test_wellFormed_refuses_channel_256 :
    [Instr.twStart 256 0#8, .twRestart 256 0#8, .twStop 256, .twWrite 256 0#8, .twRead 256 true,
      .twWritebyte 256 0#7 0#8, .twReadbyte 256 0#7].map Instr.wellFormed = List.replicate 7 false := by decide

theorem test_wellFormed_accepts_channel_255 :
    [Instr.twStart 255 0#8, .twRestart 255 0#8, .twStop 255, .twWrite 255 0#8, .twRead 255 true,
      .twWritebyte 255 0#7 0#8, .twReadbyte 255 0#7, .twInit true, .scBegin].map Instr.wellFormed
      = List.replicate 9 true := by decide

theorem test_pseudo_wellFormed_refuses_channel_256 :
    [Pseudo.startw 256 0#7, .startr 256 0#7, .restartw 256 0#7, .restartr 256 0#7, .readack 256,
      .readnak 256].map Pseudo.wellFormed = List.replicate 6 false
      ∧ (Pseudo.readnak 255).wellFormed = true := by decide

/-! ## Decoding (95 section 2; words bit by bit from 30 R46 to R49) -/

/-- OP = 0001, RSV = 000, F = 0, CH = 00000011, A = 10100000, D = 00000000. -/
theorem test_decode_twStart_bits :
    decode 0b00010000000000111010000000000000#32 = .ok (.twStart 3 0xA0#8) := by decide

/-- OP = 0110, RSV = 000, F = 0, CH = 00000001, A = 0 1010000, D = 10100101. -/
theorem test_decode_twWritebyte_bits :
    decode 0b01100000000000010101000010100101#32 = .ok (.twWritebyte 1 0x50#7 0xA5#8) := by decide

/-- OP = 1011, all zero, D = 01011010. -/
theorem test_decode_scTransfer_bits :
    decode 0b10110000000000000000000001011010#32 = .ok (.scTransfer 0x5A#8) := by decide

theorem test_decode_twoWire_words :
    decode 0x00000000#32 = .ok (.twInit false) ∧ decode 0x10FFFF00#32 = .ok (.twStart 255 0xFF#8)
      ∧ decode 0x2000A100#32 = .ok (.twRestart 0 0xA1#8) ∧ decode 0x30090000#32 = .ok (.twStop 9)
      ∧ decode 0x400000A5#32 = .ok (.twWrite 0 0xA5#8) ∧ decode 0x50010000#32 = .ok (.twRead 1 false)
      ∧ decode 0x51000000#32 = .ok (.twRead 0 true)
      ∧ decode 0x60037F00#32 = .ok (.twWritebyte 3 0x7F#7 0x00#8)
      ∧ decode 0x70005000#32 = .ok (.twReadbyte 0 0x50#7) := by decide

theorem test_decode_serialClock_words :
    decode 0x80000000#32 = .ok .scBegin ∧ decode 0x9000005A#32 = .ok (.scSend 0x5A#8)
      ∧ decode 0xA0000000#32 = .ok .scReceive ∧ decode 0xB000005A#32 = .ok (.scTransfer 0x5A#8) := by decide

theorem test_decode_reserved_opcodes :
    [0xC0000000#32, 0xD0000000#32, 0xE0000000#32, 0xFFFFFFFF#32].map decode
      = List.replicate 4 (.error .reservedOpcode) := by decide

theorem test_decode_mustBeZero :
    [0x08000000#32, 0x02000000#32, 0x00010000#32, 0x1100A000#32, 0x1000A001#32, 0x30000001#32, 0x30000100#32,
      0x4000FF00#32, 0x500000FF#32, 0x6000D0A5#32, 0x7000D000#32, 0x70005001#32, 0x81000000#32, 0x80000001#32,
      0x9001005A#32, 0xA0000001#32, 0xB1000000#32].map decode = List.replicate 17 (.error .mustBeZero) := by decide

theorem test_encode_words :
    encode (.twInit true) = 0x01000000#32 ∧ encode (.twReadbyte 0 0x50#7) = 0x70005000#32
      ∧ encode (.scSend 0x5A#8) = 0x9000005A#32 := by decide

theorem test_decodeTableWord :
    decodeTableWord 32 0x51000000 = some (.twRead 0 true) ∧ decodeTableWord 32 0xC0000000 = none := by decide

theorem test_pseudo_words :
    encode (Pseudo.startw 0 0x50#7).expand = 0x1000A000#32 ∧ encode (Pseudo.startr 0 0x50#7).expand = 0x1000A100#32
      ∧ encode (Pseudo.restartw 1 0x7F#7).expand = 0x2001FE00#32
      ∧ encode (Pseudo.restartr 1 0x7F#7).expand = 0x2001FF00#32
      ∧ encode (Pseudo.readack 2).expand = 0x50020000#32 ∧ encode (Pseudo.readnak 2).expand = 0x51020000#32 := by
  decide

/-- Program P1's text, with the liberties 30 R54 gives: a comment, either case, decimal and hexadecimal literals. -/
theorem test_assemble_p1 :
    (match Assembly.assemble "tw.init 1 ; set up\nTW.START 0, 0xA0\ntw.write 0, 165\n\ntw.stop 0" with
      | .ok ws => ws
      | .error _ => []) = [0x01000000#32, 0x1000A000#32, 0x400000A5#32, 0x30000000#32] := by decide

theorem test_assemble_refuses_out_of_range :
    (match Assembly.assemble "tw.stop 256" with | .ok _ => none | .error e => some e) = some .operandRange
      ∧ (match Assembly.assemble "tw.readbyte 0, 0x80" with | .ok _ => none | .error e => some e)
        = some .operandRange := by decide

/-! ## Two-wire vectors (95 section 3), every event written out -/

/-- TW1 and TW2. -/
theorem test_twWrite :
    (after [.twWrite 0 0xA5#8] (idle1 [false])).map (seen 0 1) = some
        ([.lvl 0 true, .wait, .lvl 1 true, .wait, .lvl 1 false,
          .lvl 0 false, .wait, .lvl 1 true, .wait, .lvl 1 false,
          .lvl 0 true, .wait, .lvl 1 true, .wait, .lvl 1 false,
          .lvl 0 false, .wait, .lvl 1 true, .wait, .lvl 1 false,
          .lvl 0 false, .wait, .lvl 1 true, .wait, .lvl 1 false,
          .lvl 0 true, .wait, .lvl 1 true, .wait, .lvl 1 false,
          .lvl 0 false, .wait, .lvl 1 true, .wait, .lvl 1 false,
          .lvl 0 true, .wait, .lvl 1 true, .wait, .lvl 1 false,
          .dir 0 .input, .lvl 1 true, .wait, .smp 0 false, .lvl 1 false, .dir 0 .output],
         .ack true, .is true, .is false)
      ∧ (after [.twWrite 0 0xA5#8] (idle1 [true])).map (·.res) = some (.ack false) := by decide

/-- TW18. -/
theorem test_twWrite_outOfRange :
    after [.twWrite 3 0x55#8] (idle1 []) = some { idle1 [] with res := .ack false } := by decide

/-- TW5. -/
theorem test_twRead :
    (after [.twRead 0 false] (idle1 [false, false, true, true, true, true, false, false])).map (seen 0 1) = some
        ([.dir 0 .input,
          .lvl 1 true, .wait, .smp 0 false, .lvl 1 false, .wait,
          .lvl 1 true, .wait, .smp 0 false, .lvl 1 false, .wait,
          .lvl 1 true, .wait, .smp 0 true, .lvl 1 false, .wait,
          .lvl 1 true, .wait, .smp 0 true, .lvl 1 false, .wait,
          .lvl 1 true, .wait, .smp 0 true, .lvl 1 false, .wait,
          .lvl 1 true, .wait, .smp 0 true, .lvl 1 false, .wait,
          .lvl 1 true, .wait, .smp 0 false, .lvl 1 false, .wait,
          .lvl 1 true, .wait, .smp 0 false, .lvl 1 false, .wait,
          .dir 0 .output, .lvl 0 false, .lvl 1 true, .wait, .lvl 1 false, .lvl 0 true],
         .byte 0x3C#8, .is true, .is false) := by decide

/-- TW19. -/
theorem test_twRead_outOfRange :
    after [.twRead 3 false] (idle1 []) = some { idle1 [] with res := .byte 0x00#8 } := by decide

/-- TW9. -/
theorem test_twInit_outer :
    (after [.twInit true] State.reset).map (fun t => (pinEvents t.trace, t.dirOf 2, t.lat)) = some
      ([.dir 0 .output, .dir 1 .output, .bcast true, .dir 2 .output, .lvl 2 true, .wait],
        .is .output, [(0, true), (1, true), (2, true)]) := by decide

/-- TW10. -/
theorem test_twInit_inner :
    (after [.twInit false] State.reset).map (fun t => (pinEvents t.trace, t.latOf 1, t.latOf 2)) = some
      ([.dir 0 .output, .dir 1 .output, .bcast true], .is true, .unk) := by decide

/-- TW11: 48 pin events, SDA1 latched low by the broadcast. -/
theorem test_twStart :
    (after [.twStart 0 0xA0#8] (idle2 [false])).map
        (fun t => ((pinEvents t.trace).take 3, (pinEvents t.trace).length, t.res, t.lat)) = some
      ([.bcast false, .lvl 2 false, .lvl 0 true], 48, .ack true, [(0, false), (1, false), (2, false)]) := by decide

/-- TW12. -/
theorem test_twStart_outOfRange :
    (after [.twStart 7 0xA0#8] (idle2 [])).map (fun t => (pinEvents t.trace, t.res, t.lat)) = some
      ([.bcast false], .ack false, [(0, false), (1, false), (2, true)]) := by decide

/-- TW13: the first events of TW.RESTART, and its end state. -/
theorem test_twRestart :
    (after [.twRestart 0 0xA1#8] (idle2 [false])).map
        (fun t => ((pinEvents t.trace).take 4, (pinEvents t.trace).length, t.res, t.lat)) = some
      ([.lvl 2 true, .lvl 0 false, .lvl 2 false, .lvl 0 true], 49, .ack true,
        [(0, true), (1, true), (2, false)]) := by decide

/-- TW15. -/
theorem test_twRestart_outOfRange :
    after [.twRestart 5 0xA1#8] (idle2 []) = some { idle2 [] with res := .ack false } := by decide

/-- TW16. -/
theorem test_twStop :
    (after [.twStop 0] { idle2 [] with lat := [(0, false), (1, false), (2, false)] }).map
        (fun t => (pinEvents t.trace, t.res, t.lat)) = some
      ([.lvl 0 false, .wait, .lvl 2 true, .wait, .lvl 0 true, .bcast true, .wait], .none,
        [(0, true), (1, true), (2, true)]) := by decide

/-- TW17. -/
theorem test_twStop_outOfRange :
    (after [.twStop 9] { idle2 [] with lat := [(0, false), (1, false), (2, false)] }).map
        (fun t => (pinEvents t.trace, t.lat)) = some
      ([.bcast true, .wait], [(0, true), (1, true), (2, false)]) := by decide

/-- TW20 to TW22: 101 pin events, and the conjunction of the two acknowledgments. -/
theorem test_twWritebyte :
    (after [.twWritebyte 0 0x50#7 0xA5#8] (idle1 [false, false])).map
        (fun t => ((pinEvents t.trace).length, (pinEvents t.trace).count .wait, t.res, t.lat)) = some
      (101, 37, .ack true, [(0, true), (1, true)])
    ∧ (after [.twWritebyte 0 0x50#7 0xA5#8] (idle1 [true, false])).map (·.res) = some (.ack false)
    ∧ (after [.twWritebyte 0 0x50#7 0xA5#8] (idle1 [false, true])).map (·.res) = some (.ack false) := by decide

/-- TW24. -/
theorem test_twWritebyte_outOfRange :
    (after [.twWritebyte 5 0x50#7 0xA5#8] (idle1 [])).map (fun t => (pinEvents t.trace, t.res)) = some
      ([.bcast false, .bcast true, .wait], .ack false) := by decide

/-- TW23, with the echo of P2 as the byte. -/
theorem test_twReadbyte :
    (after [.twReadbyte 0 0x50#7] (idle1 (false :: msbFirst 0xA5#8))).map (fun t => (waitsIn (pinEvents t.trace), t.res, t.lat))
      = some (37, .byte 0xA5#8, [(0, true), (1, true)]) := by decide

/-- TW25. -/
theorem test_twReadbyte_outOfRange :
    (after [.twReadbyte 5 0x50#7] (idle1 [])).map (fun t => (pinEvents t.trace, t.res)) = some
      ([.bcast false, .bcast true, .wait], .byte 0x00#8) := by decide

/-- S7, TW26: an empty chain. -/
theorem test_emptyChain :
    after [.twInit true, .twStart 0 0xA0#8, .twStop 0, .twRestart 0 0#8, .twWritebyte 0 0#7 0#8, .twReadbyte 0 0#7]
        (State.resetWith noChannel [] [])
      = some { State.resetWith noChannel [] [] with res := .byte 0x00#8 } := by decide

/-- TW27: no `tw.init` before; the sample is the environment's. -/
theorem test_twWrite_from_reset :
    (after [.twWrite 0 0x81#8] (State.resetWith oneChannel [] [false])).map
        (fun t => (t.res, t.dirOf 0, t.latOf 0, t.dirOf 1, t.latOf 1)) = some
      (.ack true, .is .output, .is true, .unk, .is false) := by decide

/-! ## Serial-clock vectors (95 section 4) -/

/-- SC1 and SC4. -/
theorem test_scBegin :
    (after [.scBegin] (State.resetWith (mode false false true) [] [])).map (fun t => (pinEvents t.trace, t.puOf 4)) = some
        ([.dir 4 .input, .pull 4 true, .dir 5 .output, .dir 3 .output, .lvl 3 false, .lvl 5 true], .is true)
      ∧ (after [.scBegin] (State.resetWith (mode true true true) [] [])).map (seen 3 5) = some
        ([.dir 4 .input, .pull 4 true, .dir 5 .output, .dir 3 .output, .lvl 3 true, .lvl 5 false],
          .none, .is true, .is false) := by decide

/-- SC5. -/
theorem test_scSend :
    (after [.scSend 0x80#8] (State.resetWith (mode false false false) [] [])).map (seen 3 5) = some
      ([.lvl 5 true, .lvl 3 true, .lvl 3 false] ++ (List.replicate 7 [.lvl 5 false, .lvl 3 true, .lvl 3 false]).flatten,
        .none, .is false, .is false) := by decide

/-- SC6. -/
theorem test_scReceive_mode1 :
    (after [.scReceive]
        (State.resetWith (mode false true false) [] [true, false, false, false, false, false, false, true])).map
        (fun t => ((pinEvents t.trace).take 6, (pinEvents t.trace).length, t.res, t.latOf 3)) = some
      ([.lvl 3 true, .lvl 3 false, .smp 4 true, .lvl 3 true, .lvl 3 false, .smp 4 false], 24, .byte 0x81#8,
        .is false) := by decide

/-- SC9: no `sc.begin` before. -/
theorem test_scReceive_from_reset :
    (after [.scReceive] (State.resetWith Config.reference [] [false, true, false, true, false, true, false, true])).map
        (fun t => ((pinEvents t.trace).take 3, t.res, t.dirOf 3, t.latOf 3)) = some
      ([.lvl 3 true, .smp 4 false, .lvl 3 false], .byte 0x55#8, .unk, .is false) := by decide

/-- SC7, the whole trace. -/
theorem test_scTransfer_mode3 :
    (after [.scTransfer 0x5A#8]
        (State.resetWith (mode true true true) [] [true, true, false, false, false, false, true, true])).map (seen 3 5)
      = some
        ([.lvl 3 false, .lvl 5 false, .lvl 3 true, .smp 4 true, .lvl 3 false, .lvl 5 true, .lvl 3 true, .smp 4 true,
          .lvl 3 false, .lvl 5 false, .lvl 3 true, .smp 4 false, .lvl 3 false, .lvl 5 true, .lvl 3 true, .smp 4 false,
          .lvl 3 false, .lvl 5 true, .lvl 3 true, .smp 4 false, .lvl 3 false, .lvl 5 false, .lvl 3 true, .smp 4 false,
          .lvl 3 false, .lvl 5 true, .lvl 3 true, .smp 4 true, .lvl 3 false, .lvl 5 false, .lvl 3 true, .smp 4 true],
         .byte 0xC3#8, .is true, .is false) := by decide

/-- SC8: the first bit in mode 2. -/
theorem test_scTransfer_mode2 :
    (after [.scTransfer 0xA5#8]
        (State.resetWith (mode true false false) [] [true, false, true, false, false, true, false, true])).map
        (fun t => ((pinEvents t.trace).take 4, t.res, t.latOf 3, t.latOf 5)) = some
      ([.lvl 5 true, .lvl 3 false, .smp 4 true, .lvl 3 true], .byte 0xA5#8, .is true, .is true) := by decide

/-! ## Steps, faults and results (95 section 5; 30 R58) -/

/-- F1. -/
theorem test_step_illegal_word :
    step (ready 0xC0000000#32)
      = .next { ready 0xC0000000#32 with flt := .illegalCommand 0xC0000000#32 0, trace := [.cmd 0xC0000000#32] } := by
  rfl

/-- F2: `RES` is kept; the result word is 0x8101. -/
theorem test_fault_keeps_result :
    (match step { idle1 [] with prog := [0x400000A5#32, 0x30000001#32], cp := 1, res := .ack true } with
      | .next t => some (t.flt, t.cp, t.res, resultWord t)
      | .fault _ => none
      | .refused _ => none) = some (.illegalCommand 0x30000001#32 1, 1, .ack true, 0x8101#16) := by decide

/-- The first step after reset, on a word placed as the caller loads it (TW9 with its `Cmd`). -/
theorem test_step_placed_word :
    (match step (State.reset.withFetchWord 32 0x01000000) with
      | .next t => some (t.trace, t.cp, t.res)
      | .fault _ => none
      | .refused _ => none) = some
      ([.cmd 0x01000000#32, .pin (.dir 0 .output), .pin (.dir 1 .output), .pin (.bcast true), .pin (.dir 2 .output),
        .pin (.lvl 2 true), .pin .wait], 1, .none) := by decide

theorem test_step_without_program : step State.reset = .refused .programEnded := by rfl

theorem test_result_words :
    ([.none, .ack false, .ack true, .byte 0x00#8, .byte 0xA5#8].map fun r => resultWord { State.reset with res := r })
        = [0x0000#16, 0x0100#16, 0x0101#16, 0x0200#16, 0x02A5#16]
      ∧ resultWord { State.reset with flt := .illegalCommand 0xC0000000#32 0 } = 0x8000#16 := by decide

/-- 10 R15: the four modes. -/
theorem test_mode_numbers :
    [mode false false false, mode false true false, mode true false false, mode true true false].map scMode
      = [0#2, 1#2, 2#2, 3#2] := by decide

/-! ## Witnesses: the hypotheses of each statement can be met -/

theorem illegal_of_error {w : Word} {e : Illegal} (h : decode w = .error e) : ∀ i, decode w ≠ .ok i := by
  intro i k; rw [h] at k; cases k

/-- For `StepRunsTheDecodedInstruction` and `LegalCommandStepCompletes`. -/
theorem test_hyp_ready : Ready (ready 0x01000000#32) 0x01000000#32 ∧ decode 0x01000000#32 = .ok (.twInit true) :=
  ⟨⟨by decide, rfl, rfl⟩, by decide⟩

theorem test_hyp_DecodeOfEncodeGivesBack :
    (Instr.twStart 255 0xFF#8).wellFormed = true ∧ (Instr.twRead 0 true).wellFormed = true := by decide

theorem test_hyp_EncodeOfDecodeGivesBack : decode 0x60FF7FFF#32 = .ok (.twWritebyte 255 0x7F#7 0xFF#8) := by decide

theorem test_hyp_WordLegalIffOneRowMatches :
    (∀ r ∈ rows, r.matchBits &&& r.mask = r.matchBits) ∧ decode 0x10FFFF00#32 = .ok (.twStart 255 0xFF#8) := by decide

theorem test_hyp_ReservedOpcodeRaises :
    (0xC ≤ (0xC0000000#32).toNat / 2 ^ 28 ∧ Ready (ready 0xC0000000#32) 0xC0000000#32)
      ∧ 0xC ≤ (0xFFFFFFFF#32).toNat / 2 ^ 28 ∧ Ready (ready 0xFFFFFFFF#32) 0xFFFFFFFF#32 :=
  ⟨⟨by decide, by decide, rfl, rfl⟩, by decide, by decide, rfl, rfl⟩

/-- The lowest and the highest bit a row masks besides `OP`. -/
theorem test_hyp_MustBeZeroBitRaises :
    (rowTwStop ∈ rows ∧ (0x30000001#32).toNat / 2 ^ 28 = rowTwStop.matchBits.toNat / 2 ^ 28 ∧ 0 < 28
        ∧ rowTwStop.mask.getLsbD 0 = true ∧ (0x30000001#32).getLsbD 0 = true
        ∧ Ready (ready 0x30000001#32) 0x30000001#32)
      ∧ rowTwInit ∈ rows ∧ (0x08000000#32).toNat / 2 ^ 28 = rowTwInit.matchBits.toNat / 2 ^ 28 ∧ 27 < 28
        ∧ rowTwInit.mask.getLsbD 27 = true ∧ (0x08000000#32).getLsbD 27 = true
        ∧ Ready (ready 0x08000000#32) 0x08000000#32 :=
  ⟨⟨by decide, by decide, by decide, by decide, by decide, by decide, rfl, rfl⟩,
    by decide, by decide, by decide, by decide, by decide, by decide, rfl, rfl⟩

theorem test_hyp_PseudoInstructionWords : 255 < 256 := by decide

theorem test_hyp_AssemblerKeepsOperands :
    (Instr.twWritebyte 255 0x7F#7 0xFF#8).wellFormed = true
      ∧ (match Assembly.command (Assembly.operandsOf (.twWritebyte 0 0#7 0#8)).1 [255, 127, 255] with
          | .ok i => some i
          | .error _ => none) = some (.twWritebyte 255 0x7F#7 0xFF#8) := by decide

theorem test_hyp_IllegalWordIsRecordedAndStops :
    Ready (ready 0xC0000000#32) 0xC0000000#32 ∧ (∀ i, decode 0xC0000000#32 ≠ .ok i)
      ∧ ∃ t, step (ready 0xC0000000#32) = .next t :=
  ⟨⟨by decide, rfl, rfl⟩, illegal_of_error (e := .reservedOpcode) (by decide), _, test_step_illegal_word⟩

/-- Both clauses: a legal word and an illegal one. -/
theorem test_hyp_FaultRegisterWrittenOnlyByRaise :
    (∃ t, step (ready 0x30090000#32) = .next t) ∧ ∃ t, step (ready 0xC0000000#32) = .next t :=
  ⟨⟨_, rfl⟩, _, rfl⟩

/-- A final state, a faulted state, and a state that is neither. -/
theorem test_hyp_OnlyFinalAndFaultedStatesLackAStep :
    (admitted State.reset.cfg = true ∧ State.reset.cp ≤ State.reset.prog.length ∧ Final State.reset)
      ∧ (let s := { ready 0xC0000000#32 with flt := .illegalCommand 0xC0000000#32 0 }
         admitted s.cfg = true ∧ s.cp ≤ s.prog.length ∧ s.flt = .illegalCommand 0xC0000000#32 0)
      ∧ (let s := ready 0x30000000#32
         admitted s.cfg = true ∧ s.cp ≤ s.prog.length ∧ ¬ Final s ∧ ¬ Faulted s) :=
  ⟨⟨by decide, by decide, rfl, rfl⟩, ⟨by decide, by decide, rfl⟩, by decide, by decide,
    fun h => absurd h.2 (by decide), fun h => h rfl⟩

theorem test_hyp_RepeatedPinIsRefused :
    ¬ (State.resetWith { Config.reference with scOut := 0 } [] []).cfg.pins.Nodup := by decide

/-- With commands left and with none. -/
theorem test_hyp_RunEndsFinalOrFaulted :
    (admitted (ready 0x30000000#32).cfg = true ∧ (ready 0x30000000#32).flt = .none
        ∧ (ready 0x30000000#32).cp ≤ (ready 0x30000000#32).prog.length)
      ∧ admitted State.reset.cfg = true ∧ State.reset.flt = .none ∧ State.reset.cp ≤ State.reset.prog.length :=
  ⟨⟨by decide, rfl, by decide⟩, by decide, rfl, by decide⟩

/-- The bounds of the configuration: an empty chain, the shortest and the longest delay. For every statement whose one
hypothesis is an admitted configuration (`InvariantHoldsAtReset`, the serial-clock results, `ScOutputLine`,
`ConfigurationRegisterWords`). -/
theorem test_hyp_admitted :
    admitted Config.reference = true ∧ admitted { noChannel with twDelayUs := 4294967295 } = true
      ∧ admitted { Config.reference with twDelayUs := 0 } = false := by decide

theorem inv_ready (w : Word) : Inv (ready w) where
  config := (by decide : admitted Config.reference = true)
  dirWf := List.Pairwise.nil
  latWf := List.Pairwise.nil
  puWf := List.Pairwise.nil
  dirBound := by intro e h; cases h
  latBound := by intro e h; cases h
  puBound := by intro e h; cases h
  cpInRange := Nat.zero_le _
  fault := trivial
  commands := rfl
  twDir := by intro p _ h; cases h
  scInDir := by intro h; cases h
  scClkIdle := by intro h; cases h

theorem test_hyp_StepKeepsInvariant :
    (Inv (ready 0x80000000#32) ∧ ∃ t, step (ready 0x80000000#32) = .next t)
      ∧ Inv (ready 0xC0000000#32) ∧ ∃ t, step (ready 0xC0000000#32) = .next t :=
  ⟨⟨inv_ready _, _, rfl⟩, inv_ready _, _, rfl⟩

theorem test_hyp_StepKeepsPinsFollowTrace :
    PinsFollowTrace (ready 0x80000000#32) ∧ ∃ t, step (ready 0x80000000#32) = .next t :=
  ⟨fun _ => ⟨rfl, rfl, rfl⟩, _, rfl⟩

theorem test_hyp_PinPrimitivesSetOneThing : (State.resetWith noChannel [] []).cfg.twN = 0 ∧ (1 : PinId) ≠ 0 := by decide

/-- A driven pin; a pin not driven; a pin driven at an unknown level; no answer scripted. -/
theorem test_hyp_SampleReadsLatchOrEnvironment :
    ((idle1 []).dirOf 0 = .is .output ∧ (idle1 []).latOf 0 = .is true)
      ∧ (∀ b, ¬ (State.reset.dirOf 0 = .is .output ∧ State.reset.latOf 0 = .is b))
      ∧ (∀ b, ¬ ({ idle1 [] with lat := [] }.dirOf 0 = .is .output ∧ { idle1 [] with lat := [] }.latOf 0 = .is b))
      ∧ State.reset.answers = [] := by decide

theorem test_hyp_TwInitResult : admitted State.reset.cfg = true ∧ 0 < State.reset.cfg.twN := by decide

/-- The first and the last channel. For `TwStartResult`, `TwRestartResult`, `TwStopResult`, `TwWriteResult`, `TwReadResult`,
`TwWritebyteResult`, `TwReadbyteResult` and `WriteShiftsOutMsbFirst`. -/
theorem test_hyp_addressed_channel :
    admitted (idle2 []).cfg = true ∧ (idle2 []).cfg.twSda[0]? = some 0 ∧ (idle2 []).cfg.twSda[1]? = some 1
      ∧ 1 < (idle2 []).cfg.twN := by decide

theorem test_hyp_TwStopResult : TwDriven (idle2 []) := ⟨by decide, by decide⟩

/-- An empty chain; the least index out of range. -/
theorem test_hyp_TerminalCaseDefaults :
    (State.resetWith noChannel [] []).cfg.twN = 0 ∧ isTwoWire (.twInit true) = true ∧ 0 < (idle2 []).cfg.twN
      ∧ (idle2 []).cfg.twN ≤ 2 := by decide

theorem test_hyp_WriteThenEchoReturnsTheByte :
    let s := idle1 [false, false, false, true, false, true, false, false, true, false, true]
    admitted s.cfg = true ∧ 0 < s.cfg.twN ∧ s.answers = [false, false, false] ++ msbFirst 0xA5#8 ++ [] := by decide

/-- The premises hold of the events of runs: a silent pulled-up line, a peer that acknowledges, a line stuck low. -/
theorem test_hyp_SilentPeerAndStuckLine :
    (∃ t, exec (.twWrite 0 0xA5#8) (idle1 [true]) = .next t
        ∧ Appended (idle1 [true]) t (writeEvents 0 1 0xA5#8 true) ∧ PullupTw oneChannel (writeEvents 0 1 0xA5#8 true))
      ∧ (∃ t, exec (.twWrite 0 0xA5#8) (idle1 [false]) = .next t
        ∧ Appended (idle1 [false]) t (writeEvents 0 1 0xA5#8 false) ∧ PeerAck 0 (writeEvents 0 1 0xA5#8 false))
      ∧ (∃ t, exec (.twRead 0 true) (idle1 (List.replicate 8 true)) = .next t
        ∧ Appended (idle1 (List.replicate 8 true)) t (readEvents 0 1 (List.replicate 8 true) true)
        ∧ PullupTw oneChannel (readEvents 0 1 (List.replicate 8 true) true))
      ∧ ∃ t, exec (.twRead 0 true) (idle1 (List.replicate 8 false)) = .next t
        ∧ Appended (idle1 (List.replicate 8 false)) t (readEvents 0 1 (List.replicate 8 false) true)
        ∧ ∀ b, PinEvent.smp 0 b ∈ readEvents 0 1 (List.replicate 8 false) true → b = false :=
  ⟨⟨_, rfl, rfl, by unfold PullupTw; decide⟩, ⟨_, rfl, rfl, by unfold PeerAck; decide⟩,
    ⟨_, rfl, rfl, by unfold PullupTw; decide⟩, _, rfl, rfl, by decide⟩

/-- A data pin named by TW.WRITE, and a broadcast of TW.START. -/
theorem test_hyp_ChannelsAreIndependent :
    (∃ t, exec (.twWrite 1 0xF0#8) (idle2 [false]) = .next t
        ∧ Appended (idle2 [false]) t (writeEvents 1 2 0xF0#8 false)
        ∧ PinEvent.lvl 1 true ∈ writeEvents 1 2 0xF0#8 false ∧ (1 : PinId) ∈ (idle2 [false]).cfg.twSda
        ∧ eventPin (.lvl 1 true) = some 1)
      ∧ ∃ t, exec (.twStart 7 0xA0#8) (idle2 []) = .next t ∧ Appended (idle2 []) t [.bcast false]
        ∧ ∃ b, PinEvent.bcast b ∈ [PinEvent.bcast false] :=
  ⟨⟨_, rfl, rfl, by decide, by decide, rfl⟩, _, rfl, rfl, false, by decide⟩

theorem test_hyp_EventCounts : ∀ ch, (Instr.twStop 1).channel? = some ch → ch < (idle2 []).cfg.twN := by
  intro ch h; cases h; decide

theorem test_hyp_EventShapeIgnoresSamples : (idle2 [true]).cfg = (State.resetWith Config.reference [] [false]).cfg := rfl

theorem test_hyp_OtherChannelsHeldLow :
    admitted (idle2 []).cfg = true ∧ 0 < (idle2 []).cfg.twN ∧ 1 ≠ 0 ∧ (idle2 []).cfg.twSda[1]? = some 1 := by decide

theorem test_hyp_RestartSeesTheLastBit :
    Instr.twRead 1 true = .twRead 1 true ∧ admitted (idle2 []).cfg = true ∧ (idle2 []).cfg.twSda[1]? = some 1 := by decide

theorem test_hyp_RepeatedSetupKeepsPins : ∃ outer, Instr.twInit true = .twInit outer := ⟨true, rfl⟩

/-- A transaction with serial-clock traffic inside it, as in P6, and a composite command. -/
theorem test_hyp_DisciplinedCommandsLeaveBusIdle :
    let is := [.twStart 1 0x90#8, .scBegin, .scTransfer 0x81#8, .twWrite 1 0xF0#8, .twStop 1, .twReadbyte 0 0x50#7]
    admitted (idle2 []).cfg = true ∧ BusIdle (idle2 []) ∧ channelsInRange (idle2 []).cfg is
      ∧ disciplined .idle is = some .idle :=
  ⟨by decide, ⟨⟨by decide, by decide⟩, by decide, by decide⟩, by
    intro i hi ch h
    simp only [List.mem_cons, List.not_mem_nil, or_false] at hi
    rcases hi with rfl | rfl | rfl | rfl | rfl | rfl <;> cases h <;> decide, by decide⟩

/-- `SC_IN` not driven, and driven at a known level. -/
theorem test_hyp_ScReceiveResult :
    (∀ a, line State.reset State.reset.cfg.scIn ≠ .driven a)
      ∧ (let s := { State.reset with dir := [(4, .output)], lat := [(4, true)] }
         admitted s.cfg = true ∧ line s s.cfg.scIn = .driven true) := by decide

/-- For `ScClockShape` and, with `i = .scReceive`, `ScSampleEdge`. -/
theorem test_hyp_ScClockShape :
    admitted State.reset.cfg = true ∧ isTwoWire .scBegin = false ∧ isTwoWire (.scSend 0#8) = false := by decide

/-- The loopback premise holds of a run whose samples are the bits driven. -/
theorem test_hyp_ScLoopbackReturnsTheByte :
    let s := State.resetWith Config.reference [] (msbFirst 0xA5#8)
    admitted s.cfg = true ∧ ∃ t, exec (.scTransfer 0xA5#8) s = .next t
      ∧ Appended s t (transferEvents s.cfg 0xA5#8 (msbFirst 0xA5#8))
      ∧ levelAtSamples s.cfg.scOut (s.latOf s.cfg.scOut) (transferEvents s.cfg 0xA5#8 (msbFirst 0xA5#8))
        = (samplesIn (transferEvents s.cfg 0xA5#8 (msbFirst 0xA5#8))).map Held.is :=
  ⟨by decide, _, rfl, rfl, rfl⟩

/-- Two states that agree as the statement asks and differ in `RES`, `FLT`, `cp`, `PROG`, `PU` and the recorded word. -/
theorem test_hyp_CommandsReadOnlyPinsAndPinEvents :
    let s := idle2 [true]
    let s' := { idle2 [true] with
      prog := [0#32], pu := [(4, true)], res := .ack true, flt := .illegalCommand 0xC0000000#32 0, cp := 1,
      trace := [.cmd 0#32] }
    admitted s.cfg = true ∧ s'.cfg = s.cfg ∧ (∀ q, s'.dirOf q = s.dirOf q ∧ s'.latOf q = s.latOf q)
      ∧ pinEvents s'.trace = pinEvents s.trace ∧ s'.answers = s.answers :=
  ⟨by decide, rfl, fun _ => ⟨rfl, rfl⟩, rfl, rfl⟩

theorem test_hyp_EnginesTouchOnlyTheirPins :
    (3 : PinId) ∈ (if isTwoWire (.twInit true) then [State.reset.cfg.scClk, State.reset.cfg.scIn, State.reset.cfg.scOut]
        else State.reset.cfg.twSda ++ [State.reset.cfg.twScl])
      ∧ (2 : PinId) ∈ (if isTwoWire .scBegin then [State.reset.cfg.scClk, State.reset.cfg.scIn, State.reset.cfg.scOut]
        else State.reset.cfg.twSda ++ [State.reset.cfg.twScl]) := by decide

end Sys2Proof.Tests
end

/-! SUPPORT. What one step can do (spec/10_state.md R21 to R23), said once: fetch succeeds exactly in a ready state, a
legal word performs its command's events, an illegal word is recorded. -/

namespace Sys2Proof.Proofs

open Sys2Proof.Machine Sys2Proof.Safety Sys2Proof.Laws

variable {s t : State} {w : Word} {i : Instr}

theorem fetch_eq_next_iff : fetch s = .next w ↔ Ready s w := by
  unfold fetch Ready
  cases hc : admitted s.cfg with
  | false => simp
  | true =>
    cases hf : s.flt with
    | illegalCommand v k => simp
    | none => cases hw : s.prog[s.cp]? <;> simp

/-- A ready state whose word decodes steps as its command does, between `Cmd(w)` and the advance of `cp`. -/
theorem step_of_legal (hr : Ready s w) (hd : decode w = .ok i) (he : exec i (startCommand w s) = .next t) :
    step s = .next (advance t) := by
  simp only [step, fetch_eq_next_iff.2 hr, hd, he]

theorem step_of_illegal (hr : Ready s w) (hd : ∀ i, decode w ≠ .ok i) :
    step s = .next (raiseIllegalCommand w s.cp (startCommand w s)) := by
  cases h : decode w with
  | ok i => exact absurd h (hd i)
  | error e => simp only [step, fetch_eq_next_iff.2 hr, h]

theorem ready_of_step (h : step s = .next t) : ∃ w, Ready s w := by
  cases hf : fetch s with
  | next w => exact ⟨w, fetch_eq_next_iff.1 hf⟩
  | fault r => simp [step, hf] at h
  | refused r => simp [step, hf] at h

/-- What the step of the legal word `w`, which decodes to `i`, does: `Cmd(w)`, the events of the command's row on some
samples, the result they give, `cp + 1`. -/
def StepsLegally (s : State) (w : Word) (i : Instr) (t : State) : Prop :=
  ∃ bs u, bs.length = sampleCount s.cfg i ∧ Performs (startCommand w s) (commandEvents s.cfg i bs) u
    ∧ t = advance (writeRes (commandResult s.cfg i bs) u)

theorem step_legal (hr : Ready s w) (hd : decode w = .ok i) : ∃ t, step s = .next t ∧ StepsLegally s w i t := by
  obtain ⟨bs, u, hlen, he, hu, -⟩ := exec_performs i (startCommand w s)
  exact ⟨_, step_of_legal hr hd he, bs, u, hlen, hu, rfl⟩

/-- The inversion of a step: the word at `cp` is legal and its command was performed, or it is illegal and was
recorded. -/
theorem step_cases (h : step s = .next t) :
    ∃ w, Ready s w ∧ ((∃ i, decode w = .ok i ∧ StepsLegally s w i t)
      ∨ (∀ i, decode w ≠ .ok i) ∧ t = raiseIllegalCommand w s.cp (startCommand w s)) := by
  obtain ⟨w, hr⟩ := ready_of_step h
  refine ⟨w, hr, ?_⟩
  by_cases hd : ∃ i, decode w = .ok i
  · obtain ⟨i, hd⟩ := hd
    obtain ⟨u, hu, hsteps⟩ := step_legal hr hd
    obtain rfl : u = t := by simpa [hu] using h
    exact .inl ⟨i, hd, hsteps⟩
  · rw [not_exists] at hd
    rw [step_of_illegal hr hd] at h
    exact .inr ⟨hd, by simpa using h.symm⟩

section LegalStep
variable (h : StepsLegally s w i t)
include h

theorem StepsLegally.cp : t.cp = s.cp + 1 := by
  obtain ⟨bs, u, -, hu, rfl⟩ := h; simp [hu.cp]
theorem StepsLegally.flt : t.flt = s.flt := by
  obtain ⟨bs, u, -, hu, rfl⟩ := h; simp [hu.flt]
theorem StepsLegally.prog : t.prog = s.prog := by
  obtain ⟨bs, u, -, hu, rfl⟩ := h; simp [hu.prog]
theorem StepsLegally.cfg : t.cfg = s.cfg := by
  obtain ⟨bs, u, -, hu, rfl⟩ := h; simp [hu.cfg]
theorem StepsLegally.trace : ∃ es : List PinEvent, t.trace = s.trace ++ Event.cmd w :: es.map Event.pin := by
  obtain ⟨bs, u, -, hu, rfl⟩ := h; exact ⟨commandEvents s.cfg i bs, by simp [hu.trace]⟩

end LegalStep

end Sys2Proof.Proofs

/-! SUPPORT. What a trace says of the pins (spec/10_state.md R17): how it reads piece by piece, and what keeps the pins in
agreement with it. -/

namespace Sys2Proof.Proofs

open Sys2Proof.Machine Sys2Proof.Safety Sys2Proof.Laws

variable {s t : State}

@[simp] theorem pinEvents_append (t u : List Event) : pinEvents (t ++ u) = pinEvents t ++ pinEvents u := by
  induction t with
  | nil => rfl
  | cons e t ih => cases e <;> simp [pinEvents, ih]

@[simp] theorem pinEvents_map_pin (es : List PinEvent) : pinEvents (es.map .pin) = es := by
  induction es with
  | nil => rfl
  | cons e es ih => simp [pinEvents, ih]

theorem lastDir_append (p : PinId) (h : Held Dir) (es fs : List PinEvent) :
    lastDir p h (es ++ fs) = lastDir p (lastDir p h es) fs := by
  induction es generalizing h with
  | nil => rfl
  | cons e es ih => cases e <;> exact ih _

theorem lastLvl_append (sda : List PinId) (p : PinId) (h : Held Bit) (es fs : List PinEvent) :
    lastLvl sda p h (es ++ fs) = lastLvl sda p (lastLvl sda p h es) fs := by
  induction es generalizing h with
  | nil => rfl
  | cons e es ih => cases e <;> exact ih _

theorem lastPull_append (p : PinId) (h : Held Bit) (es fs : List PinEvent) :
    lastPull p h (es ++ fs) = lastPull p (lastPull p h es) fs := by
  induction es generalizing h with
  | nil => rfl
  | cons e es ih => cases e <;> exact ih _

/-- `Cmd(w)` says nothing of a pin. -/
theorem pinsFollowTrace_startCommand (hs : PinsFollowTrace s) (w : Word) : PinsFollowTrace (startCommand w s) := by
  intro p
  simpa [State.dirOf, State.latOf, State.puOf, pinEvents] using hs p

/-- The end of a command writes neither a pin nor the trace. -/
theorem pinsFollowTrace_advance_writeRes (r : Result) :
    PinsFollowTrace (advance (writeRes r s)) ↔ PinsFollowTrace s := Iff.rfl

theorem pinsFollowTrace_raiseIllegalCommand (w : Word) (k : Nat) :
    PinsFollowTrace (raiseIllegalCommand w k s) ↔ PinsFollowTrace s := Iff.rfl

/-- Performing events keeps the pins what the trace says, since the events are appended to it. -/
theorem pinsFollowTrace_performs {es : List PinEvent} (hs : PinsFollowTrace s) (h : Performs s es t) :
    PinsFollowTrace t := by
  intro p
  obtain ⟨hdir, hlat, hpu⟩ := hs p
  rw [h.dirOf, h.latOf, h.puOf, h.cfg, h.trace, pinEvents_append, pinEvents_map_pin, lastDir_append, lastLvl_append,
    lastPull_append, hdir, hlat, hpu]
  exact ⟨rfl, rfl, rfl⟩

end Sys2Proof.Proofs

/-! SUPPORT. The pins a command's events name (spec/10_state.md R18), and the pins they leave alone. -/

namespace Sys2Proof.Proofs

open Sys2Proof.Machine Sys2Proof.Safety Sys2Proof.Laws

/-- Event `e` names no pin outside `ps`, and is a broadcast only if `bc` admits broadcasts. -/
def Within (ps : List PinId) (bc : Bit) (e : PinEvent) : Prop :=
  (∀ q, eventPin e = some q → q ∈ ps) ∧ (isBcast e = true → bc = true)

section Within
variable {ps : List PinId} {bc : Bit} {p scl : PinId} {b : Bit} {d : Dir}

@[simp] theorem within_dir : Within ps bc (.dir p d) ↔ p ∈ ps := by simp [Within, eventPin, isBcast]
@[simp] theorem within_lvl : Within ps bc (.lvl p b) ↔ p ∈ ps := by simp [Within, eventPin, isBcast]
@[simp] theorem within_pull : Within ps bc (.pull p b) ↔ p ∈ ps := by simp [Within, eventPin, isBcast]
@[simp] theorem within_smp : Within ps bc (.smp p b) ↔ p ∈ ps := by simp [Within, eventPin, isBcast]
@[simp] theorem within_wait : Within ps bc .wait := by simp [Within, eventPin, isBcast]
@[simp] theorem within_bcast : Within ps bc (.bcast b) ↔ bc = true := by simp [Within, eventPin, isBcast]

/-- Every event of a list stays within the pins `ps`. -/
def AllWithin (ps : List PinId) (bc : Bit) (es : List PinEvent) : Prop := ∀ e ∈ es, Within ps bc e

@[simp] theorem allWithin_nil : AllWithin ps bc [] := by simp [AllWithin]
@[simp] theorem allWithin_cons {e : PinEvent} {es : List PinEvent} :
    AllWithin ps bc (e :: es) ↔ Within ps bc e ∧ AllWithin ps bc es := by simp [AllWithin]
@[simp] theorem allWithin_append {es fs : List PinEvent} :
    AllWithin ps bc (es ++ fs) ↔ AllWithin ps bc es ∧ AllWithin ps bc fs := by
  simp only [AllWithin, List.forall_mem_append]

theorem allWithin_flatMap {α : Type} {f : α → List PinEvent} (h : ∀ a, AllWithin ps bc (f a)) (l : List α) :
    AllWithin ps bc (l.flatMap f) := by
  intro e he
  obtain ⟨a, -, he⟩ := List.mem_flatMap.1 he
  exact h a e he

theorem writeEvents_within (hp : p ∈ ps) (hs : scl ∈ ps) (v : Byte) : AllWithin ps bc (writeEvents p scl v b) := by
  have bits : AllWithin ps bc ((msbFirst v).flatMap (writeBitEvents p scl)) :=
    allWithin_flatMap (by simp [writeBitEvents, hp, hs]) _
  simp [writeEvents, bits, hp, hs]

theorem readEvents_within (hp : p ∈ ps) (hs : scl ∈ ps) (bs : List Bit) : AllWithin ps bc (readEvents p scl bs b) := by
  have bits : AllWithin ps bc (bs.flatMap (readBitEvents p scl)) :=
    allWithin_flatMap (by simp [readBitEvents, hp, hs]) _
  simp [readEvents, bits, hp, hs]

theorem startEvents_within (hp : p ∈ ps) (hs : scl ∈ ps) (v : Byte) : AllWithin ps true (startEvents p scl v b) := by
  simp [startEvents, writeEvents_within, hp, hs]

theorem restartEvents_within (hp : p ∈ ps) (hs : scl ∈ ps) (v : Byte) : AllWithin ps bc (restartEvents p scl v b) := by
  simp [restartEvents, writeEvents_within, hp, hs]

theorem stopEvents_within (hp : p ∈ ps) (hs : scl ∈ ps) : AllWithin ps true (stopEvents p scl) := by
  simp [stopEvents, hp, hs]

theorem initEvents_within {c : Config} (hp : ∀ p ∈ c.twSda, p ∈ ps) (hs : c.twScl ∈ ps) :
    AllWithin ps true (initEvents c b) := by
  have dirs : AllWithin ps true (c.twSda.map fun p => .dir p .output) := by simpa [AllWithin] using hp
  cases b <;> simp [initEvents, dirs, hs]

theorem scBitEvents_within {c : Config} {tx rx : List PinEvent} (hc : c.scClk ∈ ps) (ht : AllWithin ps bc tx)
    (hr : AllWithin ps bc rx) : AllWithin ps bc (scBitEvents c tx rx) := by
  cases hp : c.scCpol <;> cases ha : c.scCpha <;> simp [scBitEvents, hp, ha, hc, ht, hr]

theorem channelEvents_within {c : Config} {ch : Nat} {addressed : PinId → List PinEvent} {terminal : List PinEvent}
    (ha : ∀ p, channelPin c ch = some p → AllWithin ps bc (addressed p)) (ht : AllWithin ps bc terminal) :
    AllWithin ps bc (channelEvents c ch addressed terminal) := by
  unfold channelEvents
  split
  · next p hp => exact ha p hp
  · split
    · exact allWithin_nil
    · exact ht

end Within

/-- The pins of the engine a command belongs to (10 R18). -/
def enginePins (c : Config) (i : Instr) : List PinId :=
  if isTwoWire i then c.twSda ++ [c.twScl] else [c.scClk, c.scIn, c.scOut]

/-- A command's events name pins of its own engine only, and a serial-clock command makes no broadcast. -/
theorem commandEvents_within (c : Config) (i : Instr) (bs : List Bit) :
    AllWithin (enginePins c i) (isTwoWire i) (commandEvents c i bs) := by
  have hsda : ∀ p ∈ c.twSda, p ∈ c.twSda ++ [c.twScl] := fun p hp => List.mem_append_left _ hp
  have hscl : c.twScl ∈ c.twSda ++ [c.twScl] := by simp
  have hch : ∀ {ch p}, channelPin c ch = some p → p ∈ c.twSda ++ [c.twScl] := fun h => hsda _ (channelPin_mem h)
  have hclk : c.scClk ∈ [c.scClk, c.scIn, c.scOut] := by simp
  have hin : c.scIn ∈ [c.scClk, c.scIn, c.scOut] := by simp
  have hout : c.scOut ∈ [c.scClk, c.scIn, c.scOut] := by simp
  cases i with
  | twInit outer =>
    by_cases hn : c.twN = 0
    · simp [commandEvents, hn]
    · simp only [commandEvents, hn, if_false]
      exact initEvents_within hsda hscl
  | twStart ch abyte => exact channelEvents_within (fun p hp => startEvents_within (hch hp) hscl _) (by simp [isTwoWire])
  | twRestart ch abyte => exact channelEvents_within (fun p hp => restartEvents_within (hch hp) hscl _) allWithin_nil
  | twStop ch => exact channelEvents_within (fun p hp => stopEvents_within (hch hp) hscl) (by simp [isTwoWire])
  | twWrite ch v => exact channelEvents_within (fun p hp => writeEvents_within (hch hp) hscl _) allWithin_nil
  | twRead ch last => exact channelEvents_within (fun p hp => readEvents_within (hch hp) hscl _) allWithin_nil
  | twWritebyte ch addr7 v =>
    refine channelEvents_within (fun p hp => ?_) (by simp [isTwoWire])
    simp only [allWithin_append]
    exact ⟨⟨startEvents_within (hch hp) hscl _, writeEvents_within (hch hp) hscl _⟩, stopEvents_within (hch hp) hscl⟩
  | twReadbyte ch addr7 =>
    refine channelEvents_within (fun p hp => ?_) (by simp [isTwoWire])
    simp only [allWithin_append]
    exact ⟨⟨startEvents_within (hch hp) hscl _, readEvents_within (hch hp) hscl _⟩, stopEvents_within (hch hp) hscl⟩
  | scBegin => simp [commandEvents, beginEvents, enginePins, isTwoWire]
  | scSend v => exact allWithin_flatMap (fun _ => scBitEvents_within hclk (by simp [hout]) allWithin_nil) _
  | scReceive => exact allWithin_flatMap (fun _ => scBitEvents_within hclk allWithin_nil (by simp [hin])) _
  | scTransfer v => exact allWithin_flatMap (fun _ => scBitEvents_within hclk (by simp [hout]) (by simp [hin])) _

/-! ## A pin that no event concerns (10 R17) -/

section Untouched
variable {p : PinId} {e : PinEvent} {es : List PinEvent} {sda : List PinId} {x : Held Bit}

theorem lastDir_cons_of_not_named (h : eventPin e ≠ some p) (x : Held Dir) :
    lastDir p x (e :: es) = lastDir p x es := by
  cases e <;> simp_all [lastDir, eventPin]

theorem lastLvl_cons_of_not_named (h : eventPin e ≠ some p) (hb : isBcast e = true → p ∉ sda) :
    lastLvl sda p x (e :: es) = lastLvl sda p x es := by
  cases e <;> simp_all [lastLvl, eventPin, isBcast]

theorem lastPull_cons_of_not_named (h : eventPin e ≠ some p) : lastPull p x (e :: es) = lastPull p x es := by
  cases e <;> simp_all [lastPull, eventPin]

theorem lastDir_of_not_named (h : ∀ e ∈ es, eventPin e ≠ some p) (x : Held Dir) : lastDir p x es = x := by
  induction es with
  | nil => rfl
  | cons e es ih =>
    obtain ⟨he, hes⟩ := List.forall_mem_cons.1 h
    exact (lastDir_cons_of_not_named he x).trans (ih hes)

theorem lastLvl_of_not_named (h : ∀ e ∈ es, eventPin e ≠ some p) (hb : ∀ e ∈ es, isBcast e = true → p ∉ sda) :
    lastLvl sda p x es = x := by
  induction es with
  | nil => rfl
  | cons e es ih =>
    obtain ⟨he, hes⟩ := List.forall_mem_cons.1 h
    obtain ⟨hbe, hbes⟩ := List.forall_mem_cons.1 hb
    exact (lastLvl_cons_of_not_named he hbe).trans (ih hes hbes)

theorem lastPull_of_not_named (h : ∀ e ∈ es, eventPin e ≠ some p) : lastPull p x es = x := by
  induction es with
  | nil => rfl
  | cons e es ih =>
    obtain ⟨he, hes⟩ := List.forall_mem_cons.1 h
    exact (lastPull_cons_of_not_named he).trans (ih hes)

/-- Events within the pins `ps` leave every other pin as it was. -/
theorem performs_keeps_pin {s t : State} {ps : List PinId} {bc : Bit} (h : Performs s es t)
    (hw : AllWithin ps bc es) (hp : p ∉ ps) (hsda : bc = true → p ∉ s.cfg.twSda) :
    t.dirOf p = s.dirOf p ∧ t.latOf p = s.latOf p ∧ t.puOf p = s.puOf p := by
  have named : ∀ e ∈ es, eventPin e ≠ some p := fun e he hn => hp ((hw e he).1 p hn)
  have bcast : ∀ e ∈ es, isBcast e = true → p ∉ s.cfg.twSda := fun e he hb => hsda ((hw e he).2 hb)
  rw [h.dirOf, h.latOf, h.puOf]
  exact ⟨lastDir_of_not_named named _, lastLvl_of_not_named named bcast, lastPull_of_not_named named⟩

end Untouched

/-! ## The pins of the two engines (00 R7, 10 R18) -/

/-- What admission asks of a configuration (00 R6, R7; 10 R14). -/
theorem admitted_iff {c : Config} :
    admitted c = true ↔ c.pins.Nodup ∧ c.twN ≤ 256 ∧ 1 ≤ c.twDelayUs ∧ c.twDelayUs < 2 ^ 32 := by
  simp [admitted, and_assoc]

/-- The two engines share no pin (00 R7). -/
theorem engines_disjoint {c : Config} (h : admitted c = true) {p q : PinId} (hp : p ∈ c.twSda ++ [c.twScl])
    (hq : q ∈ [c.scClk, c.scIn, c.scOut]) : p ≠ q := by
  have hn : ((c.twSda ++ [c.twScl]) ++ [c.scClk, c.scIn, c.scOut]).Nodup := by
    simpa [Config.pins] using (admitted_iff.1 h).1
  exact fun e => List.disjoint_of_nodup_append hn hp (e ▸ hq)

/-- A pin of the other engine is none of the command's own, nor a data pin that its broadcasts would set. -/
theorem not_mem_enginePins {c : Config} {i : Instr} {q : PinId} (h : admitted c = true)
    (hq : q ∈ if isTwoWire i then [c.scClk, c.scIn, c.scOut] else c.twSda ++ [c.twScl]) :
    q ∉ enginePins c i ∧ (isTwoWire i = true → q ∉ c.twSda) := by
  cases htw : isTwoWire i with
  | true =>
    rw [htw, if_pos rfl] at hq
    have foreign : q ∉ c.twSda ++ [c.twScl] := fun hp => engines_disjoint h hp hq rfl
    rw [enginePins, htw, if_pos rfl]
    exact ⟨foreign, fun _ hp => foreign (List.mem_append_left _ hp)⟩
  | false =>
    rw [htw, if_neg Bool.false_ne_true] at hq
    have foreign : q ∉ [c.scClk, c.scIn, c.scOut] := fun hp => engines_disjoint h hq hp rfl
    rw [enginePins, htw, if_neg Bool.false_ne_true]
    exact ⟨foreign, nofun⟩

end Sys2Proof.Proofs

/-! SUPPORT. The samples among a command's events, and that the events depend on what was sampled in those samples alone
(spec/40_twowire.md R76, spec/41_serialclock.md R87). -/

namespace Sys2Proof.Proofs

open Sys2Proof.Machine Sys2Proof.Safety Sys2Proof.Laws

/-! ## The samples -/

theorem samplesIn_flatMap_single {α : Type} (f : α → List PinEvent) (g : α → Bit) (h : ∀ a, samplesIn (f a) = [g a])
    (l : List α) : samplesIn (l.flatMap f) = l.map g := by
  induction l with
  | nil => rfl
  | cons a l ih => simp [samplesIn_append, h, ih]

theorem samplesIn_readEvents (p scl : PinId) (bs : List Bit) (last : Bit) :
    samplesIn (readEvents p scl bs last) = bs := by
  have bits := samplesIn_flatMap_single (readBitEvents p scl) id (fun _ => rfl) bs
  simp [readEvents, samplesIn_append, samplesIn, bits]

theorem samplesIn_scBitEvents (c : Config) (tx rx : List PinEvent) :
    samplesIn (scBitEvents c tx rx) = samplesIn tx ++ samplesIn rx := by
  cases hp : c.scCpol <;> cases ha : c.scCpha <;> simp [scBitEvents, hp, ha, samplesIn_append, samplesIn]

theorem samplesIn_receiveEvents (c : Config) (bs : List Bit) : samplesIn (receiveEvents c bs) = bs := by
  have := samplesIn_flatMap_single (fun b => scBitEvents c [] [.smp c.scIn b]) id
    (fun _ => by simp [samplesIn_scBitEvents, samplesIn]) bs
  simpa [receiveEvents] using this

theorem samplesIn_transferEvents (c : Config) (v : Byte) {bs : List Bit} (h : bs.length = 8) :
    samplesIn (transferEvents c v bs) = bs := by
  rw [transferEvents, samplesIn_flatMap_single _ Prod.snd (fun _ => by simp [samplesIn_scBitEvents, samplesIn])]
  exact List.map_snd_zip (by simp [msbFirst, h])

theorem samplesIn_initEvents (c : Config) (outer : Bit) : samplesIn (initEvents c outer) = [] := by
  have dirs : samplesIn (c.twSda.map fun p => .dir p .output) = [] := by
    induction c.twSda with
    | nil => rfl
    | cons p ps ih => simpa [samplesIn] using ih
  cases outer <;> simp [initEvents, samplesIn_append, dirs, samplesIn]

/-- The samples of a two-wire command: those of its addressed part on a channel below `TW_N`, else none. -/
theorem samplesIn_channelEvents {c : Config} {ch : Nat} {addressed : PinId → List PinEvent} {terminal : List PinEvent}
    {bs : List Bit} {n : Nat} (h : bs.length = if ch < c.twN then n else 0)
    (ha : bs.length = n → ∀ p, samplesIn (addressed p) = bs) (ht : samplesIn terminal = []) :
    samplesIn (channelEvents c ch addressed terminal) = bs := by
  by_cases hl : ch < c.twN
  · obtain ⟨p, hp⟩ := channelPin_some hl
    simpa [channelEvents, hp] using ha (by simpa [hl] using h) p
  · have hbs : bs = [] := by simpa [hl] using h
    rw [channelEvents, channelPin_none (Nat.le_of_not_lt hl), hbs]
    show samplesIn (if c.twN = 0 then [] else terminal) = []
    split
    · rfl
    · exact ht

/-- The samples among a command's events are the ones it was given. -/
theorem samplesIn_commandEvents {c : Config} {i : Instr} {bs : List Bit} (h : bs.length = sampleCount c i) :
    samplesIn (commandEvents c i bs) = bs := by
  have zero : bs.length = 0 → [] = bs := fun h => (List.length_eq_zero_iff.1 h).symm
  have one : bs.length = 1 → [bs.getD 0 false] = bs := by
    intro h; obtain ⟨a, rfl⟩ := List.length_eq_one_iff.1 h; rfl
  cases i with
  | twInit outer =>
    rw [commandEvents]
    split
    · exact zero h
    · rw [samplesIn_initEvents]; exact zero h
  | twStart ch abyte => exact samplesIn_channelEvents h (fun h _ => one h) rfl
  | twRestart ch abyte => exact samplesIn_channelEvents h (fun h _ => one h) rfl
  | twStop ch => exact samplesIn_channelEvents (n := 0) (h.trans (ite_self 0).symm) (fun h _ => zero h) rfl
  | twWrite ch v => exact samplesIn_channelEvents h (fun h _ => one h) rfl
  | twRead ch last => exact samplesIn_channelEvents h (fun _ _ => samplesIn_readEvents ..) rfl
  | twWritebyte ch addr7 v =>
    refine samplesIn_channelEvents h (fun h _ => ?_) rfl
    obtain ⟨a1, a2, rfl⟩ := List.length_eq_two.1 h
    rfl
  | twReadbyte ch addr7 =>
    refine samplesIn_channelEvents h (fun h p => ?_) rfl
    obtain ⟨a, bs, rfl⟩ := List.exists_cons_of_length_eq_add_one h
    rw [samplesIn_append, samplesIn_append, List.tail_cons, samplesIn_readEvents]
    exact List.append_nil _
  | scBegin => exact zero h
  | scSend v => rw [commandEvents, samplesIn_sendEvents]; exact zero h
  | scReceive => exact samplesIn_receiveEvents c bs
  | scTransfer v => exact samplesIn_transferEvents c v h

/-! ## The shape -/

/-- The samples `bs` with every value blotted out. -/
def blank (bs : List Bit) : List Bit := bs.map fun _ => false

theorem blank_eq_of_length {bs bs' : List Bit} (h : bs.length = bs'.length) : blank bs = blank bs' := by
  simp [blank, List.map_const', h]

theorem getD_blank (bs : List Bit) (k : Nat) : (blank bs).getD k false = false := by
  rw [blank, List.getD_eq_getElem?_getD, List.getElem?_map]
  cases bs[k]? <;> rfl

theorem tail_blank (bs : List Bit) : (blank bs).tail = blank bs.tail := List.map_tail.symm

theorem map_shape_readEvents (p scl : PinId) (bs : List Bit) (last : Bit) :
    (readEvents p scl bs last).map shape = readEvents p scl (blank bs) last := by
  simp only [readEvents, List.map_append, List.map_flatMap, blank, List.flatMap_map]
  rfl

theorem map_shape_scBitEvents (c : Config) (tx rx : List PinEvent) :
    (scBitEvents c tx rx).map shape = scBitEvents c (tx.map shape) (rx.map shape) := by
  cases hp : c.scCpol <;> cases ha : c.scCpha <;> simp [scBitEvents, hp, ha, shape]

theorem map_shape_sendEvents (c : Config) (v : Byte) : (sendEvents c v).map shape = sendEvents c v := by
  simp only [sendEvents, List.map_flatMap, map_shape_scBitEvents]
  rfl

theorem map_shape_receiveEvents (c : Config) (bs : List Bit) :
    (receiveEvents c bs).map shape = receiveEvents c (blank bs) := by
  simp only [receiveEvents, List.map_flatMap, blank, List.flatMap_map, map_shape_scBitEvents]
  rfl

theorem map_shape_transferEvents (c : Config) (v : Byte) (bs : List Bit) :
    (transferEvents c v bs).map shape = transferEvents c v (blank bs) := by
  simp only [transferEvents, List.map_flatMap, blank, List.zip_map_right, List.flatMap_map, map_shape_scBitEvents]
  rfl

theorem map_shape_initEvents (c : Config) (outer : Bit) : (initEvents c outer).map shape = initEvents c outer := by
  cases outer <;> simp [initEvents, shape, Function.comp_def]

theorem map_shape_channelEvents {c : Config} {ch : Nat} {addressed addressed' : PinId → List PinEvent}
    {terminal : List PinEvent} (ha : ∀ p, (addressed p).map shape = addressed' p) (ht : terminal.map shape = terminal) :
    (channelEvents c ch addressed terminal).map shape = channelEvents c ch addressed' terminal := by
  unfold channelEvents
  split
  · exact ha _
  · split
    · rfl
    · exact ht

/-- Without their values the samples leave one shape: the command's events on blank samples. -/
theorem map_shape_commandEvents (c : Config) (i : Instr) (bs : List Bit) :
    (commandEvents c i bs).map shape = commandEvents c i (blank bs) := by
  cases i with
  | twInit outer =>
    rw [commandEvents]
    split
    · next hn => simp [commandEvents, hn]
    · next hn => simp [commandEvents, hn, map_shape_initEvents]
  | twStart ch abyte =>
    simp only [commandEvents, getD_blank]
    exact map_shape_channelEvents (fun _ => rfl) rfl
  | twRestart ch abyte =>
    simp only [commandEvents, getD_blank]
    exact map_shape_channelEvents (fun _ => rfl) rfl
  | twStop ch => exact map_shape_channelEvents (fun _ => rfl) rfl
  | twWrite ch v =>
    simp only [commandEvents, getD_blank]
    exact map_shape_channelEvents (fun _ => rfl) rfl
  | twRead ch last => exact map_shape_channelEvents (fun _ => map_shape_readEvents ..) rfl
  | twWritebyte ch addr7 v =>
    simp only [commandEvents, getD_blank]
    exact map_shape_channelEvents (fun _ => rfl) rfl
  | twReadbyte ch addr7 =>
    simp only [commandEvents, getD_blank, tail_blank]
    refine map_shape_channelEvents (fun p => ?_) rfl
    rw [List.map_append, List.map_append, map_shape_readEvents]
    rfl
  | scBegin => rfl
  | scSend v => exact map_shape_sendEvents c v
  | scReceive => exact map_shape_receiveEvents c bs
  | scTransfer v => exact map_shape_transferEvents c v bs

end Sys2Proof.Proofs

/-! SUPPORT. What a command reads of a state (spec/10_state.md R20, spec/20_memory.md R33): two states of one view answer the
same samples. -/

namespace Sys2Proof.Proofs

open Sys2Proof.Machine Sys2Proof.Safety Sys2Proof.Laws

/-- What of a state a command may read: the configuration, the lines, the pin events and the scripted answers (log 4). -/
structure SameView (s s' : State) : Prop where
  cfg : s'.cfg = s.cfg
  dirOf : ∀ q, s'.dirOf q = s.dirOf q
  latOf : ∀ q, s'.latOf q = s.latOf q
  pinEvents : pinEvents s'.trace = pinEvents s.trace
  answers : s'.answers = s.answers

theorem SameView.line {s s' : State} (h : SameView s s') (p : PinId) : line s' p = line s p := by
  simp only [Machine.line, h.dirOf, h.latOf]

theorem envAnswer_congr {t t' : List Event} (h : pinEvents t' = pinEvents t) (a : List Bit) (p : PinId) :
    envAnswer a t' p = envAnswer a t p := by
  cases a <;> simp [envAnswer, h]

/-- Only a sample holds more than its shape. -/
theorem eq_of_shape_eq {e e' : PinEvent} (h : shape e' = shape e) :
    e' = e ∨ ∃ p b b', e = .smp p b ∧ e' = .smp p b' := by
  cases e <;> cases e' <;> simp_all [shape]

/-- The environment's answer fixes an event of a given shape. -/
theorem event_eq_of_envAnswers {a : List Bit} {t t' : List Event} {e e' : PinEvent} (ht : pinEvents t' = pinEvents t)
    (hshape : shape e' = shape e) (h : EnvAnswers a t [e]) (h' : EnvAnswers a t' [e']) : e' = e := by
  obtain he | ⟨p, b, b', rfl, rfl⟩ := eq_of_shape_eq hshape
  · exact he
  · obtain ⟨hb, -⟩ := h
    obtain ⟨hb', -⟩ := h'
    rw [hb, hb', envAnswer_congr ht]

/-- The environment's answers fix the events: two lists of one shape, performed from traces with the same pin events, are
the same list. -/
theorem events_eq_of_envAnswers {a : List Bit} {t t' : List Event} {es es' : List PinEvent}
    (ht : pinEvents t' = pinEvents t) (hshape : es'.map shape = es.map shape)
    (h : EnvAnswers a t es) (h' : EnvAnswers a t' es') : es' = es := by
  induction es generalizing a t t' es' with
  | nil => simpa using hshape
  | cons e es ih =>
    obtain ⟨e', fs, rfl, he, hfs⟩ := List.map_eq_cons_iff.1 hshape
    obtain ⟨he1, hes⟩ := (envAnswers_append a t [e] es).1 h
    obtain ⟨he1', hes'⟩ := (envAnswers_append a t' [e'] fs).1 h'
    obtain rfl := event_eq_of_envAnswers ht he he1 he1'
    rw [ih (by simp [ht]) hfs hes hes']

/-- Two runs of one command from states of one view take the same samples and use the same answers. -/
theorem samples_eq_of_sameView {i : Instr} {s s' t t' : State} {bs bs' : List Bit} (hadm : admitted s.cfg = true)
    (hv : SameView s s') (hl : bs.length = sampleCount s.cfg i) (hl' : bs'.length = sampleCount s'.cfg i)
    (h : Sampled i s bs (commandEvents s.cfg i bs) t) (h' : Sampled i s' bs' (commandEvents s'.cfg i bs') t') :
    bs' = bs ∧ t'.answers = t.answers := by
  obtain ⟨htw, henv, hdriven⟩ := h
  obtain ⟨htw', henv', hdriven'⟩ := h'
  have hadm' := hadm
  rw [← hv.cfg] at hadm'
  have hlen : bs'.length = bs.length := by rw [hl, hl', hv.cfg]
  have ofRuns (hr : Runs s (commandEvents s.cfg i bs) t) (hr' : Runs s' (commandEvents s'.cfg i bs') t') :
      bs' = bs ∧ t'.answers = t.answers := by
    obtain ⟨rfl, ha⟩ := hr
    obtain ⟨rfl, ha'⟩ := hr'
    rw [hv.answers] at ha'
    have hes := events_eq_of_envAnswers hv.pinEvents
      (by rw [map_shape_commandEvents, map_shape_commandEvents, hv.cfg, blank_eq_of_length hlen]) ha ha'
    refine ⟨?_, by rw [performAll_answers, performAll_answers, hes, hv.answers]⟩
    rw [← samplesIn_commandEvents hl', hes, samplesIn_commandEvents hl]
  have hline : line s' s'.cfg.scIn = line s s.cfg.scIn := by rw [hv.cfg, hv.line]
  rcases line_driven_or_env s s.cfg.scIn with ⟨a, ha⟩ | ha
  · cases htwo : isTwoWire i with
    | true => exact ofRuns (htw htwo) (htw' htwo)
    | false =>
      obtain ⟨hbs, hans⟩ := hdriven htwo hadm a ha
      obtain ⟨hbs', hans'⟩ := hdriven' htwo hadm' a (hline.trans ha)
      exact ⟨by rw [hbs', hbs, hlen], by rw [hans, hans', hv.answers]⟩
  · exact ofRuns (henv hadm ha) (henv' hadm' (by rwa [hline]))

end Sys2Proof.Proofs

/-! SUPPORT. The results of the table (spec/10_state.md R19) and the configuration registers as numbers (R14, R15). -/

namespace Sys2Proof.Proofs

open Sys2Proof.Machine Sys2Proof.Safety Sys2Proof.Laws

/-- A result of one kind in range and out of range is of that kind. -/
theorem exists_eq_of_ite {α : Type} (mk : α → Result) (p : Prop) [Decidable p] (x y : α) :
    ∃ z, (if p then mk x else mk y) = mk z := ⟨_, (apply_ite mk p x y).symm⟩

theorem toNat_twCfgWord {c : Config} (h : c.twN ≤ 256) : (twCfgWord c).toNat = c.twN := by
  have : c.twN < 2 ^ 9 := by omega
  rw [twCfgWord, BitVec.toNat_setWidth_of_le (by decide), BitVec.toNat_ofNat, Nat.mod_eq_of_lt this]

theorem toNat_twDlyWord {c : Config} (h : c.twDelayUs < 2 ^ 32) : (twDlyWord c).toNat = c.twDelayUs := by
  rw [twDlyWord, BitVec.toNat_ofNat, Nat.mod_eq_of_lt h]

theorem toNat_scCfgWord (c : Config) :
    (scCfgWord c).toNat = c.scCpha.toNat + 2 * c.scCpol.toNat + 4 * c.scPullup.toNat := by
  unfold scCfgWord
  cases c.scCpha <;> cases c.scCpol <;> cases c.scPullup <;> rfl

/-- The mode is the low two bits of `SC_CFG`, so the pull-up flag drops out. -/
theorem toNat_scMode (c : Config) : (scMode c).toNat = 2 * c.scCpol.toNat + c.scCpha.toNat := by
  rw [scMode, BitVec.extractLsb'_toNat, toNat_scCfgWord]
  have hcpha := Bool.toNat_lt c.scCpha
  have hcpol := Bool.toNat_lt c.scCpol
  rw [Nat.shiftRight_zero]
  omega

end Sys2Proof.Proofs

/-! PROOFS. The statements of spec/10_state.md. -/

namespace Sys2Proof.Proofs

open Sys2Proof.Machine Sys2Proof.Safety Sys2Proof.Laws

/-- Settles O19: a step appends `Cmd(w)` and then performs events, and each keeps the pins what the trace says; the
writes of `RES`, `cp` and `FLT` touch neither. -/
theorem stepKeepsPinsFollowTrace : Obligations.StepKeepsPinsFollowTrace := by
  intro s t hs h
  obtain ⟨w, -, ⟨i, -, bs, u, -, hu, rfl⟩ | ⟨-, rfl⟩⟩ := step_cases h
  · rw [pinsFollowTrace_advance_writeRes]
    exact pinsFollowTrace_performs (pinsFollowTrace_startCommand hs w) hu
  · rw [pinsFollowTrace_raiseIllegalCommand]
    exact pinsFollowTrace_startCommand hs w

/-- Settles O10: a legal command's step is the performance of its events. -/
theorem legalCommandStepCompletes : Obligations.LegalCommandStepCompletes := by
  intro s w i hr hd
  obtain ⟨t, ht, hl⟩ := step_legal hr hd
  obtain ⟨es, htrace⟩ := hl.trace
  obtain ⟨-, hflt, -⟩ := hr
  exact ⟨t, es, ht, hl.cp, hl.flt.trans hflt, hl.prog, hl.cfg, htrace⟩

/-- Settles O12, by the inversion of a step. -/
theorem faultRegisterWrittenOnlyByRaise : Obligations.FaultRegisterWrittenOnlyByRaise := by
  refine ⟨fun _ _ _ => rfl, fun s t h => ?_⟩
  obtain ⟨w, ⟨-, hflt, hw⟩, ⟨i, hd, hl⟩ | ⟨hd, rfl⟩⟩ := step_cases h
  · exact ⟨hflt, .inl ⟨hl.flt.trans hflt, w, i, hw, hd⟩⟩
  · exact ⟨hflt, .inr ⟨w, hw, hd, rfl⟩⟩

/-- Settles O9: the command completes, so the step is its next state with `cp` advanced. -/
theorem stepRunsTheDecodedInstruction : Obligations.StepRunsTheDecodedInstruction := by
  intro s w i hr hd
  obtain ⟨bs, t, -, he, -⟩ := exec_performs i (startCommand w s)
  have he' : exec i { s with trace := s.trace ++ [.cmd w] } = .next _ := he
  rw [step_of_legal hr hd he, he']
  rfl

/-- Settles O50: the other engine's pins are outside `enginePins`, which hold every pin the command's events name. -/
theorem enginesTouchOnlyTheirPins : Obligations.EnginesTouchOnlyTheirPins := by
  intro i s hadm
  obtain ⟨bs, t, -, he, hp, -⟩ := exec_performs i s
  have within := commandEvents_within s.cfg i bs
  refine ⟨_, _, he, hp.trace, fun q hq => ?_⟩
  obtain ⟨hout, hsda⟩ := not_mem_enginePins hadm hq
  obtain ⟨hdir, hlat, hpu⟩ := performs_keeps_pin hp within hout hsda
  exact ⟨hdir, hlat, hpu, fun e hmem => ⟨fun hn => hout ((within e hmem).1 q hn), (within e hmem).2⟩⟩

/-- Settles O51: the two runs take the same samples, so their events, results and pins are the same. -/
theorem commandsReadOnlyPinsAndPinEvents : Obligations.CommandsReadOnlyPinsAndPinEvents := by
  intro i s s' hadm hcfg hpins hev hans
  have hv : SameView s s' := ⟨hcfg, fun q => (hpins q).1, fun q => (hpins q).2, hev, hans⟩
  obtain ⟨bs, t, hl, he, hp, hs⟩ := exec_performs i s
  obtain ⟨bs', t', hl', he', hp', hs'⟩ := exec_performs i s'
  obtain ⟨rfl, ha⟩ := samples_eq_of_sameView hadm hv hl hl' hs hs'
  rw [hcfg] at he' hp'
  refine ⟨_, _, commandEvents s.cfg i bs', he, he', hp.trace, hp'.trace, rfl, fun q => ⟨?_, ?_⟩, ha⟩
  · exact (hp'.dirOf q).trans (by rw [hv.dirOf, ← hp.dirOf]; rfl)
  · exact (hp'.latOf q).trans (by rw [hv.latOf, hcfg, ← hp.latOf]; rfl)

/-- Settles O52: the result of each command's row is of the kind its rule gives, in range and out of range alike. -/
theorem resultKinds : Obligations.ResultKinds := by
  intro i s
  obtain ⟨bs, t, -, he, -⟩ := exec_performs i s
  refine ⟨_, he, ?_⟩
  cases i with
  | twInit outer => rfl
  | twStart ch abyte => exact exists_eq_of_ite .ack ..
  | twRestart ch abyte => exact exists_eq_of_ite .ack ..
  | twStop ch => rfl
  | twWrite ch v => exact exists_eq_of_ite .ack ..
  | twRead ch last => exact exists_eq_of_ite .byte ..
  | twWritebyte ch addr7 v => exact exists_eq_of_ite .ack ..
  | twReadbyte ch addr7 => exact exists_eq_of_ite .byte ..
  | scBegin => rfl
  | scSend v => rfl
  | scReceive => exact ⟨_, rfl⟩
  | scTransfer v => exact ⟨_, rfl⟩

/-- Settles O55: register by register, `TW_N` and `TW_DELAY_US` fitting their fields because the configuration is
admitted. -/
theorem configurationRegisterWords : Obligations.ConfigurationRegisterWords := by
  intro c hadm
  obtain ⟨-, hn, -, hdelay⟩ := admitted_iff.1 hadm
  exact ⟨toNat_twCfgWord hn, toNat_twDlyWord hdelay, toNat_scCfgWord c, toNat_scMode c⟩

end Sys2Proof.Proofs

/-! SUPPORT. What a pin reads after each pin primitive (spec/20_memory.md R30, R31, R34, R35), and the line after `PinSet`
(R32). -/

namespace Sys2Proof.Proofs

open Sys2Proof.Machine Sys2Proof.Safety Sys2Proof.Laws

variable (s : State) (p q : PinId) (d : Dir) (b : Bit)

theorem dirOf_pinSetDir : (pinSetDir p d s).dirOf q = if q = p then .is d else s.dirOf q := by
  simp only [eq_comm (a := q)]
  exact pinRead_pinWrite ..

theorem latOf_pinSet : (pinSet p b s).latOf q = if q = p then .is b else s.latOf q := by
  simp only [eq_comm (a := q)]
  exact pinRead_pinWrite ..

theorem puOf_pinPull : (pinPull p b s).puOf q = if q = p then .is b else s.puOf q := by
  simp only [eq_comm (a := q)]
  exact pinRead_pinWrite ..

theorem latOf_bcastData : (bcastData b s).latOf q = if q ∈ s.cfg.twSda then .is b else s.latOf q :=
  pinRead_pinWriteAll ..

/-- A broadcast on the empty chain sets no latch. -/
theorem lat_bcastData_of_twN_eq_zero (h : s.cfg.twN = 0) : (bcastData b s).lat = s.lat := by
  rw [bcastData_lat, List.length_eq_zero_iff.1 h]
  rfl

variable {s p q}

theorem line_of_not_output (h : s.dirOf p ≠ .is .output) : line s p = .environment := by
  unfold line
  split <;> simp_all

theorem line_congr {t : State} (hdir : t.dirOf p = s.dirOf p) (hlat : t.latOf p = s.latOf p) : line t p = line s p := by
  simp only [line, hdir, hlat]

/-- The line of an output pin follows its latch at once; any other pin stays with the environment. -/
theorem line_pinSet_self : line (pinSet p b s) p = if s.dirOf p = .is .output then .driven b else .environment := by
  split
  · next hout =>
    have hdir : (pinSet p b s).dirOf p = .is .output := hout
    simp only [line, hdir, latOf_pinSet, if_true]
  · next hout => exact line_of_not_output (s := pinSet p b s) hout

theorem line_pinSet_of_ne (h : q ≠ p) : line (pinSet p b s) q = line s q :=
  line_congr rfl (by rw [latOf_pinSet, if_neg h])

end Sys2Proof.Proofs

/-! PROOFS. The statements of spec/20_memory.md. -/

namespace Sys2Proof.Proofs

open Sys2Proof.Machine Sys2Proof.Safety Sys2Proof.Laws

/-- Settles O20, primitive by primitive: what it sets, by the reading lemmas; the frame, by its definition. -/
theorem pinPrimitivesSetOneThing : Obligations.PinPrimitivesSetOneThing := by
  intro s p d b
  refine ⟨?pinSetDir, ?pinSet, ?pinPull, ?bcastData, ?delay⟩
  case pinSetDir => exact ⟨fun q => dirOf_pinSetDir s p q d, rfl⟩
  case pinSet => exact ⟨fun q => latOf_pinSet s p q b, line_pinSet_self b, fun _ => line_pinSet_of_ne b, rfl⟩
  case pinPull => exact ⟨fun q => puOf_pinPull s p q b, rfl⟩
  case bcastData => exact ⟨fun q => latOf_bcastData s q b, lat_bcastData_of_twN_eq_zero s b, rfl⟩
  case delay => rfl

/-- Settles O21: the pin is driven at a known level, driven at an unknown one, or not driven. -/
theorem sampleReadsLatchOrEnvironment : Obligations.SampleReadsLatchOrEnvironment := by
  intro s p
  refine ⟨fun b => pinGet_driven, fun hknown => ⟨?_, fun hnone => by rw [hnone]; rfl⟩⟩
  by_cases hout : s.dirOf p = .is .output
  · cases hlat : s.latOf p with
    | unk => exact pinGet_unknown hout hlat
    | is b => exact absurd ⟨hout, hlat⟩ (hknown b)
  · exact pinGet_undriven hout

end Sys2Proof.Proofs

/-! SUPPORT. The decoder, said once (spec/30_encoding.md R47 to R49, R53): a word decodes to an instruction exactly if it
matches the instruction's row and its fields are the operands. -/

namespace Sys2Proof.Proofs

variable {w : Word} {r : Row} {i : Instr}

/-! ## Rows (30 R48, R49) -/

theorem matches_iff : r.matches w = true ↔ w &&& r.mask = r.matchBits := decide_eq_true_iff

/-- The table lists the rows of the twelve commands. -/
theorem rows_eq_map_row :
    rows = [Instr.twInit false, .twStart 0 0#8, .twRestart 0 0#8, .twStop 0, .twWrite 0 0#8, .twRead 0 false,
      .twWritebyte 0 0#7 0#8, .twReadbyte 0 0#7, .scBegin, .scSend 0#8, .scReceive, .scTransfer 0#8].map Instr.row := rfl

theorem row_mem (i : Instr) : i.row ∈ rows := by
  cases i <;> simp [Instr.row, rows]

theorem exists_row_eq (hr : r ∈ rows) : ∃ i : Instr, i.row = r := by
  rw [rows_eq_map_row] at hr
  obtain ⟨i, -, hi⟩ := List.mem_map.1 hr
  exact ⟨i, hi⟩

theorem row_matches_encode (i : Instr) : i.row.matches (encode i) = true := by
  have own : Laws.OwnRow.Statement i := by
    cases i with
    | twInit outer => exact Laws.OwnRow.twInit outer
    | twStart ch abyte => exact Laws.OwnRow.twStart ch abyte
    | twRestart ch abyte => exact Laws.OwnRow.twRestart ch abyte
    | twStop ch => exact Laws.OwnRow.twStop ch
    | twWrite ch v => exact Laws.OwnRow.twWrite ch v
    | twRead ch last => exact Laws.OwnRow.twRead ch last
    | twWritebyte ch addr7 v => exact Laws.OwnRow.twWritebyte ch addr7 v
    | twReadbyte ch addr7 => exact Laws.OwnRow.twReadbyte ch addr7
    | scBegin => exact Laws.OwnRow.scBegin
    | scSend v => exact Laws.OwnRow.scSend v
    | scReceive => exact Laws.OwnRow.scReceive
    | scTransfer v => exact Laws.OwnRow.scTransfer v
  exact (own _ (row_mem i)).2 rfl

/-- Below `OP` every match is 0: what a row masks there must be zero. -/
theorem getLsbD_matchBits_eq_false (hr : r ∈ rows) {k : Nat} (hk : k < 28) : r.matchBits.getLsbD k = false := by
  have : ∀ r ∈ rows, ∀ k < 28, r.matchBits.getLsbD k = false := by decide
  exact this r hr k hk

/-! ## Decoding -/

/-- The command of `i` with the fields of `w` as its operands (30 R47). -/
def withFieldsOf (w : Word) : Instr → Instr
  | .twInit _ => .twInit (flagField w)
  | .twStart _ _ => .twStart (chField w).toNat (addrField w)
  | .twRestart _ _ => .twRestart (chField w).toNat (addrField w)
  | .twStop _ => .twStop (chField w).toNat
  | .twWrite _ _ => .twWrite (chField w).toNat (dataField w)
  | .twRead _ _ => .twRead (chField w).toNat (flagField w)
  | .twWritebyte _ _ _ => .twWritebyte (chField w).toNat (addr7Field w) (dataField w)
  | .twReadbyte _ _ => .twReadbyte (chField w).toNat (addr7Field w)
  | .scBegin => .scBegin
  | .scSend _ => .scSend (dataField w)
  | .scReceive => .scReceive
  | .scTransfer _ => .scTransfer (dataField w)

theorem decodeRow_eq_ok_iff {j : Instr} : decodeRow r w j = .ok i ↔ r.matches w = true ∧ j = i := by
  unfold decodeRow
  split <;> simp_all

/-- The opcode alone selects the row. -/
theorem decode_of_opField (h : opField w = opField i.row.matchBits) :
    decode w = decodeRow i.row w (withFieldsOf w i) := by
  cases i <;> simp only [decode, h, Instr.row] <;> rfl

theorem decode_of_matches (h : i.row.matches w = true) : decode w = .ok (withFieldsOf w i) := by
  rw [decode_of_opField (opField_of_matches (row_mem i) h)]
  exact decodeRow_eq_ok_iff.2 ⟨h, rfl⟩

theorem decode_eq_ok_iff : decode w = .ok i ↔ i.row.matches w = true ∧ withFieldsOf w i = i := by
  constructor
  · intro h
    unfold decode at h
    split at h
    case h_13 => cases h
    all_goals
      obtain ⟨hm, rfl⟩ := decodeRow_eq_ok_iff.1 h
      exact ⟨hm, rfl⟩
  · rintro ⟨hm, hi⟩
    rw [decode_of_matches hm, hi]

theorem toNat_opField (w : Word) : (opField w).toNat = w.toNat / 2 ^ 28 := by
  rw [opField, BitVec.extractLsb'_toNat, Nat.shiftRight_eq_div_pow]
  omega

/-- A word that decodes has one of the twelve opcodes. -/
theorem opcode_lt_of_decode (h : decode w = .ok i) : w.toNat / 2 ^ 28 < 12 := by
  have hrows : ∀ r ∈ rows, (opField r.matchBits).toNat < 12 := by decide
  rw [← toNat_opField, opField_of_matches (row_mem i) (decode_eq_ok_iff.1 h).1]
  exact hrows _ (row_mem i)

/-! ## Well-formed operands (30 R54) -/

theorem wellFormed_iff : i.wellFormed = true ↔ ∀ ch, i.channel? = some ch → ch < 256 := by
  unfold Instr.wellFormed
  split <;> simp_all

theorem channel?_withFieldsOf (w : Word) (i : Instr) :
    (withFieldsOf w i).channel? = i.channel?.map fun _ => (chField w).toNat := by
  cases i <;> rfl

theorem wellFormed_withFieldsOf (w : Word) (i : Instr) : (withFieldsOf w i).wellFormed = true := by
  rw [wellFormed_iff, channel?_withFieldsOf]
  intro ch h
  obtain ⟨-, -, rfl⟩ := Option.map_eq_some_iff.1 h
  exact (chField w).isLt

/-- The encoder writes each operand in the field the decoder reads it from. -/
theorem withFieldsOf_encode (h : i.wellFormed = true) : withFieldsOf (encode i) i = i := by
  have hch := wellFormed_iff.1 h
  cases i <;>
    simp_all [withFieldsOf, encode, Instr.channel?, flagField_encodeFields, chField_encodeFields, addrField_encodeFields,
      addr7Field_encodeFields, dataField_encodeFields]

/-! ## A legal word's fields (30 R46, R48) -/

theorem getLsbD_of_matches (h : r.matches w = true) {k : Nat} (hm : r.mask.getLsbD k = true) :
    w.getLsbD k = r.matchBits.getLsbD k := by
  simpa [hm] using congrArg (·.getLsbD k) (matches_iff.1 h)

theorem row_withFieldsOf (w : Word) (i : Instr) : (withFieldsOf w i).row = i.row := by
  cases i <;> rfl

/-- A bit that the row does not mask belongs to an operand, which is read from the word and written back. -/
theorem getLsbD_encode_withFieldsOf {k : Nat} (hk : k < 32) (hm : i.row.mask.getLsbD k = false) :
    (encode (withFieldsOf w i)).getLsbD k = w.getLsbD k := by
  cases i <;> simp only [withFieldsOf, encode, BitVec.ofNat_toNat, BitVec.setWidth_eq,
    getLsbD_encodeFields _ _ _ _ _ k hk] <;> interval_cases k <;>
    simp_all [flagField, chField, addrField, addr7Field, dataField, Instr.row, rowTwInit, rowTwStart, rowTwRestart,
      rowTwStop, rowTwWrite, rowTwRead, rowTwWritebyte, rowTwReadbyte, rowScBegin, rowScSend, rowScReceive, rowScTransfer]

/-- The masked bits of both words are the row's match, and the others are the operands'. -/
theorem encode_withFieldsOf (h : i.row.matches w = true) : encode (withFieldsOf w i) = w := by
  have henc : i.row.matches (encode (withFieldsOf w i)) = true := row_withFieldsOf w i ▸ row_matches_encode _
  refine BitVec.eq_of_getLsbD_eq fun k hk => ?_
  cases hm : i.row.mask.getLsbD k with
  | true => rw [getLsbD_of_matches henc hm, getLsbD_of_matches h hm]
  | false => exact getLsbD_encode_withFieldsOf hk hm

end Sys2Proof.Proofs

/-! SUPPORT. A command word as a number (spec/30_encoding.md R55, R56), and the result word (R58). -/

namespace Sys2Proof.Proofs

open Sys2Proof.Machine

theorem toNat_append_eq_add {m n : Nat} (x : BitVec m) (y : BitVec n) :
    (x ++ y).toNat = x.toNat * 2 ^ n + y.toNat := by
  rw [BitVec.toNat_append, ← Nat.shiftLeft_add_eq_or_of_lt y.isLt, Nat.shiftLeft_eq]

/-- The fields of 30 R46 side by side, `RSV` 0. -/
theorem encodeFields_eq_append (op : BitVec 4) (f : Bit) (ch : BitVec 8) (a d : Byte) :
    encodeFields op f ch a d = op ++ 0#3 ++ BitVec.ofBool f ++ ch ++ a ++ d := by
  refine BitVec.eq_of_getLsbD_eq fun k hk => ?_
  rw [getLsbD_encodeFields _ _ _ _ _ _ hk]
  simp only [BitVec.getLsbD_append, BitVec.getLsbD_ofBool, BitVec.getLsbD_zero]
  interval_cases k <;> simp

theorem toNat_encodeFields (op : BitVec 4) (f : Bit) (ch : BitVec 8) (a d : Byte) :
    (encodeFields op f ch a d).toNat
      = op.toNat * 2 ^ 28 + f.toNat * 2 ^ 24 + ch.toNat * 2 ^ 16 + a.toNat * 2 ^ 8 + d.toNat := by
  rw [encodeFields_eq_append]
  simp only [toNat_append_eq_add, BitVec.toNat_ofBool, BitVec.toNat_zero]
  omega

theorem addressByte_eq_append (addr7 : BitVec 7) (rw : Bit) : addressByte addr7 rw = addr7 ++ BitVec.ofBool rw := by
  rw [addressByte, BitVec.append_def, BitVec.setWidth'_eq, BitVec.shiftLeftZeroExtend_eq]

theorem toNat_addressByte (addr7 : BitVec 7) (rw : Bit) : (addressByte addr7 rw).toNat = 2 * addr7.toNat + rw.toNat := by
  rw [addressByte_eq_append, toNat_append_eq_add, BitVec.toNat_ofBool, Nat.mul_comm, pow_one]

theorem toNat_resultWord (s : State) :
    (resultWord s).toNat
      = (faultBit s.flt).toNat * 2 ^ 15 + (resultKind s.res).toNat * 2 ^ 8 + (resultData s.res).toNat := by
  rw [resultWord, BitVec.toNat_cast]
  simp only [toNat_append_eq_add, BitVec.toNat_zero]
  omega

/-- Kind 3 is never produced. -/
theorem toNat_resultKind_lt (r : Result) : (resultKind r).toNat < 3 := by
  cases r <;> simp [resultKind]

end Sys2Proof.Proofs

/-! SUPPORT. The operand checks of the assembler (spec/30_encoding.md R54): each accepts exactly the numbers of its field,
so a command line and its instruction determine each other. -/

namespace Sys2Proof.Proofs

open Sys2Proof.Assembly

theorem bind_eq_ok_iff {ε α β : Type} {x : Except ε α} {f : α → Except ε β} {r : β} :
    x >>= f = .ok r ↔ ∃ a, x = .ok a ∧ f a = .ok r := by
  cases x <;> simp [bind, Except.bind]

theorem pure_eq_ok_iff {ε α : Type} {x y : α} : (pure x : Except ε α) = .ok y ↔ x = y := by
  simp [pure, Except.pure]

variable {n : Nat}

theorem flagOf_eq_ok_iff {b : Bit} : flagOf n = .ok b ↔ b.toNat = n := by
  cases b <;> simp only [flagOf] <;> split <;> simp <;> omega

theorem channelOf_eq_ok_iff {ch : Nat} : channelOf n = .ok ch ↔ ch = n ∧ ch < 256 := by
  unfold channelOf
  split <;> simp <;> omega

theorem byteOf_eq_ok_iff {v : Byte} : byteOf n = .ok v ↔ v.toNat = n := by
  have hv := v.isLt
  unfold byteOf
  split <;> simp [BitVec.toNat_eq] <;> omega

theorem addr7Of_eq_ok_iff {a : BitVec 7} : addr7Of n = .ok a ↔ a.toNat = n := by
  have ha := a.isLt
  unfold addr7Of
  split <;> simp [BitVec.toNat_eq] <;> omega

theorem command_operandsOf {i : Instr} (h : i.wellFormed = true) :
    command (operandsOf i).1 (operandsOf i).2 = .ok i := by
  have hch := wellFormed_iff.1 h
  cases i <;>
    simp_all [command, operandsOf, Instr.channel?, bind_eq_ok_iff, pure_eq_ok_iff, flagOf_eq_ok_iff,
      channelOf_eq_ok_iff, byteOf_eq_ok_iff, addr7Of_eq_ok_iff, -bind_pure_comp]

/-- The six keywords of pseudo-instructions are no instruction's keyword; for each other one, every operand passed its
check, which gives it back. -/
theorem operandsOf_of_command {i j : Instr} {k : Keyword} {ops : List Nat} (hk : (operandsOf j).1 = k)
    (h : command k ops = .ok i) : i.wellFormed = true ∧ operandsOf i = (k, ops) := by
  unfold command at h
  split at h
  case h_13 | h_14 | h_15 | h_16 | h_17 | h_18 => cases j <;> cases hk
  case h_19 => cases h
  all_goals
    simp only [bind_eq_ok_iff, pure_eq_ok_iff, flagOf_eq_ok_iff, channelOf_eq_ok_iff, byteOf_eq_ok_iff,
      addr7Of_eq_ok_iff, Except.ok.injEq] at h
    grind [wellFormed_iff, Instr.channel?, operandsOf]

end Sys2Proof.Proofs

/-! PROOFS. The statements of spec/30_encoding.md. -/

namespace Sys2Proof.Proofs

open Sys2Proof.Machine

/-- Settles O1: the word matches the instruction's own row, and the decoder reads each operand where the encoder wrote
it. -/
theorem decodeOfEncodeGivesBack : Obligations.DecodeOfEncodeGivesBack := fun i h =>
  decode_eq_ok_iff.2 ⟨row_matches_encode i, withFieldsOf_encode h⟩

/-- Settles O2: the instruction is its row's command with the fields of the word. -/
theorem encodeOfDecodeGivesBack : Obligations.EncodeOfDecodeGivesBack := by
  intro w i h
  obtain ⟨hm, hi⟩ := decode_eq_ok_iff.1 h
  rw [← hi]
  exact ⟨encode_withFieldsOf hm, wellFormed_withFieldsOf w i⟩

/-- Settles O3: a word that matches a row is decoded by that row, and the rows differ in `OP`. -/
theorem wordLegalIffOneRowMatches : Obligations.WordLegalIffOneRowMatches := by
  refine ⟨rfl, fun w => ?_⟩
  simp only [← matches_iff]
  have own {i : Instr} (h : decode w = .ok i) : i.row ∈ rows ∧ i.row.matches w = true :=
    ⟨row_mem i, (decode_eq_ok_iff.1 h).1⟩
  refine ⟨⟨?legal_matches, ?matches_legal⟩, ?unique, fun i => own⟩
  case legal_matches =>
    rintro ⟨i, h⟩
    exact ⟨i.row, own h⟩
  case matches_legal =>
    rintro ⟨r, hr, h⟩
    obtain ⟨i, rfl⟩ := exists_row_eq hr
    exact ⟨_, decode_of_matches h⟩
  case unique =>
    intro r hr q hq hrw hqw
    exact row_eq_of_opField hr hq ((opField_of_matches hr hrw).symm.trans (opField_of_matches hq hqw))

/-- Settles O5: the word could match only the row of its `OP`, whose match is 0 in the bit. -/
theorem mustBeZeroBitRaises : Obligations.MustBeZeroBitRaises := by
  intro w r k hr hop hk hmask hbit
  have illegal (i : Instr) : decode w ≠ .ok i := by
    intro h
    obtain ⟨hm, -⟩ := decode_eq_ok_iff.1 h
    have hrow : i.row = r := by
      refine row_eq_of_opField (row_mem i) hr (BitVec.eq_of_toNat_eq ?_)
      rw [← opField_of_matches (row_mem i) hm, toNat_opField, toNat_opField, hop]
    have hzero : w.getLsbD k = false := by
      rw [getLsbD_of_matches (hrow ▸ hm) hmask, getLsbD_matchBits_eq_false hr hk]
    rw [hzero] at hbit
    cases hbit
  exact ⟨illegal, fun s hs => ⟨_, step_of_illegal hs illegal, rfl, rfl, fun _ => ⟨rfl, rfl, rfl⟩⟩⟩

/-- Settles O7: the word is the sum of its fields, and so is the address byte. -/
theorem pseudoInstructionWords : Obligations.PseudoInstructionWords := by
  intro ch a h
  simp [Pseudo.expand, encode, toNat_encodeFields, toNat_addressByte, Nat.mod_eq_of_lt h]

/-- Settles O8: each operand check accepts exactly the values of its field. -/
theorem assemblerKeepsOperands : Obligations.AssemblerKeepsOperands :=
  ⟨fun _ => command_operandsOf, fun _ _ _ => operandsOf_of_command rfl⟩

/-- Settles O4: every row's opcode is below 12. -/
theorem reservedOpcodeRaises : Obligations.ReservedOpcodeRaises := by
  intro w hop
  have illegal (i : Instr) : decode w ≠ .ok i := fun h => Nat.not_lt.2 hop (opcode_lt_of_decode h)
  exact ⟨illegal, fun s hs => ⟨_, step_of_illegal hs illegal, rfl⟩⟩

/-- Settles O6: the words by the encoder; then the legal ones decode by the round trip of O1. -/
theorem encodingExamplesDecode : Obligations.EncodingExamplesDecode := by
  have legal {i : Instr} {w : Word} (hw : encode i = w) (h : i.wellFormed = true) : decode w = .ok i :=
    hw ▸ decodeOfEncodeGivesBack i h
  refine ⟨by decide, ?_, ?_, ?_, ?_, ?_, ?_, ?_, ?_, ?_, ?_, ?_, ?_, ?_, by decide, by decide, by decide, by decide⟩
  all_goals exact legal (by decide) (by decide)

/-- Settles O54: fault bit, kind and data are the digits of the word as a number. -/
theorem resultWordLayout : Obligations.ResultWordLayout := by
  intro s
  have hword := toNat_resultWord s
  have hkind := toNat_resultKind_lt s.res
  have hdata := (resultData s.res).isLt
  refine ⟨?fault, ?zeros, ?kind, ?result⟩
  case fault =>
    have : (resultWord s).toNat / 2 ^ 15 = (faultBit s.flt).toNat := by omega
    rw [BitVec.getLsbD, Nat.testBit_eq_decide_div_mod_eq, this]
    cases s.flt <;> rfl
  case zeros =>
    refine BitVec.eq_of_toNat_eq ?_
    rw [BitVec.extractLsb'_toNat, Nat.shiftRight_eq_div_pow, BitVec.toNat_zero]
    omega
  case kind =>
    refine fun h => absurd (congrArg BitVec.toNat h) ?_
    rw [BitVec.extractLsb'_toNat, Nat.shiftRight_eq_div_pow, BitVec.toNat_ofNat]
    omega
  case result =>
    have : (resultWord s).toNat % 2 ^ 10 = (resultKind s.res).toNat * 2 ^ 8 + (resultData s.res).toNat := by omega
    rw [this]
    cases s.res with
    | none => rfl
    | ack b => cases b <;> rfl
    | byte v => simp [resultKind, resultData]

end Sys2Proof.Proofs

/-! SUPPORT. What the event lists of the two-wire commands leave on each pin (spec/40_twowire.md R62 to R68): the direction
and the level set last, and no pull-up. -/

namespace Sys2Proof.Proofs

open Sys2Proof.Machine Sys2Proof.Safety Sys2Proof.Laws

/-! ## The two-wire pins (00 R7) -/

theorem twScl_notMem_twSda {c : Config} (h : admitted c = true) : c.twScl ∉ c.twSda := fun hs =>
  List.disjoint_of_nodup_append (admitted_iff.1 h).1 hs List.mem_cons_self

theorem channelPin_ne_twScl {c : Config} {ch : Nat} {p : PinId} (h : admitted c = true)
    (hp : channelPin c ch = some p) : p ≠ c.twScl :=
  fun e => twScl_notMem_twSda h (e ▸ channelPin_mem hp)

section Pins
variable {p q scl : PinId} {bs : List Bit} {v : Byte} {a b last outer : Bit} {c : Config} {sda : List PinId}
  {x : Held Dir} {y : Held Bit}

/-! ## The direction set last -/

theorem lastDir_writeEvents : lastDir q x (writeEvents p scl v a) = if q = p then .is .output else x := by
  by_cases hp : q = p
  · simp [writeEvents, msbFirst, writeBitEvents, lastDir, hp]
  · simp [writeEvents, msbFirst, writeBitEvents, lastDir, hp, Ne.symm hp]

theorem lastDir_readBits : lastDir q x (bs.flatMap (readBitEvents p scl)) = x := by
  induction bs with
  | nil => rfl
  | cons b bs ih => exact (lastDir_append ..).trans ih

theorem lastDir_readEvents : lastDir q x (readEvents p scl bs last) = if q = p then .is .output else x := by
  by_cases hp : q = p
  · simp [readEvents, lastDir_append, lastDir, hp]
  · simp [readEvents, lastDir_append, lastDir_readBits, lastDir, hp, Ne.symm hp]

/-- A start sets a direction in its byte write only. -/
theorem lastDir_startEvents : lastDir q x (startEvents p scl v a) = if q = p then .is .output else x :=
  lastDir_writeEvents (scl := scl) (v := v) (a := a)

/-- A restart sets a direction in its byte write only. -/
theorem lastDir_restartEvents : lastDir q x (restartEvents p scl v a) = if q = p then .is .output else x :=
  lastDir_writeEvents (scl := scl) (v := v) (a := a)

theorem lastDir_stopEvents : lastDir q x (stopEvents p scl) = x := rfl

theorem lastDir_outputs (ps : List PinId) :
    lastDir q x (ps.map fun p => .dir p .output) = if q ∈ ps then .is .output else x := by
  induction ps generalizing x with
  | nil => rfl
  | cons p ps ih =>
    rw [List.map_cons, lastDir, ih]
    by_cases hps : q ∈ ps <;> simp [hps, eq_comm (a := q)]

theorem lastDir_initEvents : lastDir q x (initEvents c outer) =
    if q ∈ c.twSda ∨ (outer = true ∧ q = c.twScl) then .is .output else x := by
  rw [initEvents, lastDir_append, lastDir_append, lastDir_outputs]
  cases outer with
  | false => simp [lastDir]
  | true => by_cases hq : q = c.twScl <;> simp [lastDir, hq, eq_comm (a := c.twScl)]

/-! ## The level set last -/

theorem lastLvl_writeEvents (h : p ≠ scl) : lastLvl sda q y (writeEvents p scl v a) =
    if q = p then .is (v.getLsbD 0) else if q = scl then .is false else y := by
  by_cases hp : q = p
  · simp [writeEvents, msbFirst, writeBitEvents, lastLvl, hp, h.symm]
  · by_cases hs : q = scl
    · simp [writeEvents, msbFirst, writeBitEvents, lastLvl, hs, h.symm]
    · simp [writeEvents, msbFirst, writeBitEvents, lastLvl, hp, hs, Ne.symm hp, Ne.symm hs]

theorem lastLvl_readBits (h : q ≠ scl) : lastLvl sda q y (bs.flatMap (readBitEvents p scl)) = y := by
  induction bs with
  | nil => rfl
  | cons b bs ih => rw [List.flatMap_cons, lastLvl_append]; simpa [readBitEvents, lastLvl, h.symm] using ih

theorem lastLvl_readEvents (h : p ≠ scl) : lastLvl sda q y (readEvents p scl bs last) =
    if q = p then .is true else if q = scl then .is false else y := by
  by_cases hp : q = p
  · simp [readEvents, lastLvl_append, lastLvl, hp]
  · by_cases hs : q = scl
    · simp [readEvents, lastLvl_append, lastLvl, hs, h, h.symm]
    · simp [readEvents, lastLvl_append, lastLvl_readBits, lastLvl, hp, hs, Ne.symm hp, Ne.symm hs]

theorem lastLvl_startEvents (h : p ≠ scl) : lastLvl sda q y (startEvents p scl v a) =
    if q = p then .is (v.getLsbD 0) else if q ∈ sda ∨ q = scl then .is false else y := by
  rw [startEvents, lastLvl_append, lastLvl_writeEvents h]
  by_cases hs : q = scl <;> by_cases hd : q ∈ sda <;> simp [lastLvl, hs, hd, eq_comm (a := scl)]

theorem lastLvl_restartEvents (h : p ≠ scl) : lastLvl sda q y (restartEvents p scl v a) =
    if q = p then .is (v.getLsbD 0) else if q = scl then .is false else y := by
  rw [restartEvents, lastLvl_append, lastLvl_writeEvents h]
  by_cases hp : q = p
  · simp [hp]
  · by_cases hs : q = scl <;> simp [lastLvl, hp, hs, Ne.symm hp, eq_comm (a := scl)]

theorem lastLvl_stopEvents (hp : p ∈ sda) : lastLvl sda q y (stopEvents p scl) =
    if q ∈ sda ∨ q = scl then .is true else y := by
  by_cases hd : q ∈ sda
  · simp [stopEvents, lastLvl, hd]
  · have hqp : p ≠ q := fun e => hd (e ▸ hp)
    simp [stopEvents, lastLvl, hd, hqp, eq_comm (a := q)]

theorem lastLvl_outputs (ps : List PinId) : lastLvl sda q y (ps.map fun p => .dir p .output) = y := by
  induction ps with
  | nil => rfl
  | cons p ps ih => exact ih

theorem lastLvl_initEvents : lastLvl c.twSda q y (initEvents c outer) =
    if q ∈ c.twSda ∨ (outer = true ∧ q = c.twScl) then .is true else y := by
  rw [initEvents, lastLvl_append, lastLvl_append, lastLvl_outputs]
  cases outer with
  | false => simp [lastLvl]
  | true => by_cases hq : q = c.twScl <;> simp [lastLvl, hq, eq_comm (a := c.twScl)]

/-! ## The data line at the rising edges (40 R63) -/

/-- Eight rises with the bits of the byte, and the acknowledgment pulse with the last one still latched. -/
theorem dataAtRises_writeEvents (h : p ≠ scl) :
    dataAtRises p scl y (writeEvents p scl v a) = (msbFirst v).map .is ++ [.is (v.getLsbD 0)] := by
  simp [writeEvents, msbFirst, writeBitEvents, dataAtRises, h, h.symm]

/-! ## No pull-up -/

theorem lastPull_of_no_pull {es : List PinEvent} (h : ∀ p b, .pull p b ∉ es) : lastPull q y es = y := by
  induction es with
  | nil => rfl
  | cons e es ih =>
    have tail := ih fun p b hm => h p b (List.mem_cons_of_mem _ hm)
    cases e with
    | pull p b => exact absurd List.mem_cons_self (h p b)
    | dir _ _ | lvl _ _ | bcast _ | wait | smp _ _ => exact tail

theorem notMem_channelEvents {e : PinEvent} {ch : Nat} {addressed : PinId → List PinEvent} {terminal : List PinEvent}
    (ha : ∀ p, e ∉ addressed p) (ht : e ∉ terminal) : e ∉ channelEvents c ch addressed terminal := by
  unfold channelEvents
  split
  · exact ha _
  · split
    · exact List.not_mem_nil
    · exact ht

theorem pull_notMem_writeEvents : .pull q a ∉ writeEvents p scl v b := by simp [writeEvents, writeBitEvents]

/-- Only the serial-clock engine pulls a pin (20 R34, 41 R78). -/
theorem pull_notMem_commandEvents {i : Instr} (h : isTwoWire i = true) : .pull q a ∉ commandEvents c i bs := by
  cases i with
  | twInit outer =>
    rw [commandEvents]
    split
    · exact List.not_mem_nil
    · cases outer <;> simp [initEvents]
  | twStart ch abyte => exact notMem_channelEvents (by simp [startEvents, pull_notMem_writeEvents]) (by simp)
  | twRestart ch abyte => exact notMem_channelEvents (by simp [restartEvents, pull_notMem_writeEvents]) (by simp)
  | twStop ch => exact notMem_channelEvents (by simp [stopEvents]) (by simp)
  | twWrite ch v => exact notMem_channelEvents (fun _ => pull_notMem_writeEvents) (by simp)
  | twRead ch last => exact notMem_channelEvents (by simp [readEvents, readBitEvents]) (by simp)
  | twWritebyte ch addr7 v =>
    exact notMem_channelEvents (by simp [startEvents, stopEvents, pull_notMem_writeEvents]) (by simp)
  | twReadbyte ch addr7 =>
    exact notMem_channelEvents
      (by simp [startEvents, readEvents, readBitEvents, stopEvents, pull_notMem_writeEvents]) (by simp)
  | scBegin | scSend _ | scReceive | scTransfer _ => cases h

end Pins
end Sys2Proof.Proofs

/-! SUPPORT. What a completed two-wire command leaves behind, once for all of them and then for each on a channel below
`TW_N` (spec/40_twowire.md R66 to R72). -/

namespace Sys2Proof.Proofs

open Sys2Proof.Machine Sys2Proof.Safety Sys2Proof.Laws

variable {s t u : State} {i : Instr} {es : List PinEvent} {bs : List Bit} {r : Result} {ch : Nat} {p : PinId}

/-- A two-wire command performs the events of its row, every sample the environment's answer. -/
theorem exec_runs (h : isTwoWire i = true) (s : State) :
    ∃ bs u, bs.length = sampleCount s.cfg i ∧ exec i s = .next (writeRes (commandResult s.cfg i bs) u)
      ∧ Runs s (commandEvents s.cfg i bs) u := by
  obtain ⟨bs, u, hl, he, -, hs, -⟩ := exec_performs i s
  exact ⟨bs, u, hl, he, hs h⟩

/-- `t` is what a two-wire command leaves of `s` when it performs the events `es` and writes the result `r`. -/
structure Completes (s : State) (es : List PinEvent) (r : Result) (t : State) : Prop where
  appended : Appended s t es
  env : EnvAnswers s.answers s.trace es
  answers : t.answers = s.answers.drop (samplesIn es).length
  res : t.res = r
  dirOf : ∀ q, t.dirOf q = lastDir q (s.dirOf q) es
  latOf : ∀ q, t.latOf q = lastLvl s.cfg.twSda q (s.latOf q) es
  puOf : ∀ q, t.puOf q = s.puOf q
  control : SameControl s t

theorem completes_of_runs (h : Runs s es u) (hpull : ∀ p b, .pull p b ∉ es) : Completes s es r (writeRes r u) where
  appended := h.performs.trace
  env := h.2
  answers := h.1 ▸ performAll_answers es s
  res := rfl
  dirOf := h.performs.dirOf
  latOf := h.performs.latOf
  puOf q := (h.performs.puOf q).trans (lastPull_of_no_pull hpull)
  control := ⟨h.cfg, h.performs.prog, h.performs.flt, h.performs.cp⟩

theorem exec_completes (h : isTwoWire i = true) (s : State) :
    ∃ bs t, bs.length = sampleCount s.cfg i ∧ exec i s = .next t
      ∧ Completes s (commandEvents s.cfg i bs) (commandResult s.cfg i bs) t := by
  obtain ⟨bs, u, hl, he, hr⟩ := exec_runs h s
  exact ⟨bs, _, hl, he, completes_of_runs hr fun _ _ => pull_notMem_commandEvents h⟩

/-! ## A command that takes no sample -/

theorem twInit_completes (outer : Bit) (h : 0 < s.cfg.twN) :
    ∃ t, exec (.twInit outer) s = .next t ∧ Completes s (initEvents s.cfg outer) .none t := by
  obtain ⟨bs, t, -, he, ht⟩ := exec_completes (i := .twInit outer) rfl s
  refine ⟨t, he, ?_⟩
  rwa [commandEvents, if_neg h.ne'] at ht

/-! ## A channel below `TW_N` -/

section Channel
variable (hp : channelPin s.cfg ch = some p)
include hp

theorem channelEvents_addressed (addressed : PinId → List PinEvent) (terminal : List PinEvent) :
    channelEvents s.cfg ch addressed terminal = addressed p := by
  rw [channelEvents, hp]

theorem twStop_completes : ∃ t, exec (.twStop ch) s = .next t ∧ Completes s (stopEvents p s.cfg.twScl) .none t := by
  obtain ⟨bs, t, -, he, ht⟩ := exec_completes (i := .twStop ch) rfl s
  refine ⟨t, he, ?_⟩
  rwa [commandEvents, channelEvents_addressed hp] at ht

theorem twStart_completes (abyte : Byte) : ∃ a t, exec (.twStart ch abyte) s = .next t
    ∧ Completes s (startEvents p s.cfg.twScl abyte a) (.ack (!a)) t := by
  obtain ⟨bs, t, -, he, ht⟩ := exec_completes (i := .twStart ch abyte) rfl s
  refine ⟨bs.getD 0 false, t, he, ?_⟩
  rwa [commandEvents, commandResult, channelEvents_addressed hp, if_pos (channelPin_lt hp)] at ht

theorem twRestart_completes (abyte : Byte) : ∃ a t, exec (.twRestart ch abyte) s = .next t
    ∧ Completes s (restartEvents p s.cfg.twScl abyte a) (.ack (!a)) t := by
  obtain ⟨bs, t, -, he, ht⟩ := exec_completes (i := .twRestart ch abyte) rfl s
  refine ⟨bs.getD 0 false, t, he, ?_⟩
  rwa [commandEvents, commandResult, channelEvents_addressed hp, if_pos (channelPin_lt hp)] at ht

theorem twWrite_completes (v : Byte) : ∃ a t, exec (.twWrite ch v) s = .next t
    ∧ Completes s (writeEvents p s.cfg.twScl v a) (.ack (!a)) t := by
  obtain ⟨bs, t, -, he, ht⟩ := exec_completes (i := .twWrite ch v) rfl s
  refine ⟨bs.getD 0 false, t, he, ?_⟩
  rwa [commandEvents, commandResult, channelEvents_addressed hp, if_pos (channelPin_lt hp)] at ht

theorem twRead_completes (last : Bit) : ∃ bs t, bs.length = 8 ∧ exec (.twRead ch last) s = .next t
    ∧ Completes s (readEvents p s.cfg.twScl bs last) (.byte (byteOfSamples bs)) t := by
  obtain ⟨bs, t, hl, he, ht⟩ := exec_completes (i := .twRead ch last) rfl s
  refine ⟨bs, t, hl.trans (if_pos (channelPin_lt hp)), he, ?_⟩
  rwa [commandEvents, commandResult, channelEvents_addressed hp, if_pos (channelPin_lt hp)] at ht

theorem twWritebyte_completes (addr7 : BitVec 7) (v : Byte) : ∃ a1 a2 t, exec (.twWritebyte ch addr7 v) s = .next t
    ∧ Completes s (startEvents p s.cfg.twScl (addressByte addr7 false) a1 ++ writeEvents p s.cfg.twScl v a2
        ++ stopEvents p s.cfg.twScl) (.ack (!a1 && !a2)) t := by
  obtain ⟨bs, t, -, he, ht⟩ := exec_completes (i := .twWritebyte ch addr7 v) rfl s
  refine ⟨bs.getD 0 false, bs.getD 1 false, t, he, ?_⟩
  rwa [commandEvents, commandResult, channelEvents_addressed hp, if_pos (channelPin_lt hp)] at ht

theorem twReadbyte_completes (addr7 : BitVec 7) : ∃ a1 bs t, bs.length = 8 ∧ exec (.twReadbyte ch addr7) s = .next t
    ∧ Completes s (startEvents p s.cfg.twScl (addressByte addr7 true) a1 ++ readEvents p s.cfg.twScl bs true
        ++ stopEvents p s.cfg.twScl) (.byte (byteOfSamples bs)) t := by
  obtain ⟨bs, t, hl, he, ht⟩ := exec_completes (i := .twReadbyte ch addr7) rfl s
  refine ⟨bs.getD 0 false, bs.tail, t, ?_, he, ?_⟩
  · rw [List.length_tail, hl, sampleCount, if_pos (channelPin_lt hp)]
  · rwa [commandEvents, commandResult, channelEvents_addressed hp, if_pos (channelPin_lt hp)] at ht

end Channel

end Sys2Proof.Proofs

/-! SUPPORT. A whole transaction on a channel (spec/40_twowire.md R71, R72), the terminal case (R60), and the pins the byte
operations name (R75). -/

namespace Sys2Proof.Proofs

open Sys2Proof.Machine Sys2Proof.Safety Sys2Proof.Laws

variable {s : State} {i : Instr} {es : List PinEvent} {c : Config} {ch : Nat} {p q scl : PinId}

/-! ## Start, one byte, stop -/

section Transaction
variable {sda : List PinId} {v : Byte} {a : Bit}

theorem lastDir_transaction (hes : ∀ x, lastDir q x es = if q = p then .is .output else x) (x : Held Dir) :
    lastDir q x (startEvents p scl v a ++ es ++ stopEvents p scl) = if q = p then .is .output else x := by
  rw [lastDir_append, lastDir_stopEvents, lastDir_append, hes, lastDir_startEvents]
  split <;> rfl

theorem lastLvl_transaction (hes : AllWithin [p, scl] false es) (hp : p ∈ sda) (y : Held Bit) :
    lastLvl sda q y (startEvents p scl v a ++ es ++ stopEvents p scl) =
      if q ∈ sda ∨ q = scl then .is true else y := by
  rw [lastLvl_append, lastLvl_stopEvents hp]
  split
  · rfl
  · next hq =>
    obtain ⟨hsda, hscl⟩ := not_or.1 hq
    have hout : q ∉ [p, scl] := by
      rw [List.mem_pair]
      exact fun h => h.elim (fun e => hsda (e ▸ hp)) hscl
    have start : AllWithin [p, scl] true (startEvents p scl v a) := startEvents_within (by simp) (by simp) v
    have named : ∀ e ∈ startEvents p scl v a ++ es, eventPin e ≠ some q := fun e he hn =>
      hout ((List.mem_append.1 he).elim (fun h => (start e h).1 q hn) (fun h => (hes e h).1 q hn))
    exact lastLvl_of_not_named named fun _ _ _ => hsda

end Transaction

theorem addressByte_write (addr7 : BitVec 7) : addressByte addr7 false = addr7.setWidth 8 <<< 1 := by
  simp [addressByte]

theorem addressByte_read (addr7 : BitVec 7) : addressByte addr7 true = addr7.setWidth 8 <<< 1 ||| 1#8 := rfl

/-! ## The terminal case (40 R60) -/

/-- What a two-wire command performs in the terminal case of a chain that is not empty: its outermost part (40 R60 (b)). -/
def outermostEvents (c : Config) : Instr → List PinEvent
  | .twInit outer => initEvents c outer
  | .twStart _ _ => [.bcast false]
  | .twStop _ => [.bcast true, .wait]
  | .twWritebyte _ _ _ => [.bcast false, .bcast true, .wait]
  | .twReadbyte _ _ => [.bcast false, .bcast true, .wait]
  | .twRestart _ _ | .twWrite _ _ | .twRead _ _ => []
  | .scBegin | .scSend _ | .scReceive | .scTransfer _ => []

theorem channelEvents_terminal (h : c.twN ≤ ch) (addressed : PinId → List PinEvent) (terminal : List PinEvent) :
    channelEvents c ch addressed terminal = if c.twN = 0 then [] else terminal := by
  rw [channelEvents, channelPin_none h]

section Terminal
variable (htw : isTwoWire i = true) (hch : ∀ ch, i.channel? = some ch → c.twN ≤ ch)
include htw hch

theorem commandEvents_terminal (bs : List Bit) :
    commandEvents c i bs = if c.twN = 0 then [] else outermostEvents c i := by
  cases i with
  | twInit outer => rfl
  | twStart ch abyte => exact channelEvents_terminal (hch ch rfl) ..
  | twStop ch => exact channelEvents_terminal (hch ch rfl) ..
  | twRestart ch abyte => exact channelEvents_terminal (hch ch rfl) ..
  | twWrite ch v => exact channelEvents_terminal (hch ch rfl) ..
  | twRead ch last => exact channelEvents_terminal (hch ch rfl) ..
  | twWritebyte ch addr7 v => exact channelEvents_terminal (hch ch rfl) ..
  | twReadbyte ch addr7 => exact channelEvents_terminal (hch ch rfl) ..
  | scBegin | scSend _ | scReceive | scTransfer _ => cases htw

theorem commandResult_terminal (bs : List Bit) : commandResult c i bs = defaultResult i := by
  cases i with
  | twInit outer => rfl
  | twStop ch => rfl
  | twStart ch abyte => exact if_neg (hch ch rfl).not_gt
  | twRestart ch abyte => exact if_neg (hch ch rfl).not_gt
  | twWrite ch v => exact if_neg (hch ch rfl).not_gt
  | twRead ch last => exact if_neg (hch ch rfl).not_gt
  | twWritebyte ch addr7 v => exact if_neg (hch ch rfl).not_gt
  | twReadbyte ch addr7 => exact if_neg (hch ch rfl).not_gt
  | scBegin | scSend _ | scReceive | scTransfer _ => cases htw

end Terminal

section TerminalExec
variable (htw : isTwoWire i = true) (hch : ∀ ch, i.channel? = some ch → s.cfg.twN ≤ ch)
include htw hch

/-- A terminal case without events only writes the default result. -/
theorem exec_terminal_silent (h : s.cfg.twN = 0 ∨ outermostEvents s.cfg i = []) :
    exec i s = .next { s with res := defaultResult i } := by
  obtain ⟨bs, u, -, he, hr, -⟩ := exec_runs htw s
  have hes : commandEvents s.cfg i bs = [] := by
    rw [commandEvents_terminal htw hch, ite_eq_left_iff]
    exact fun hn => h.resolve_left hn
  rw [hes] at hr
  rw [he, hr, commandResult_terminal htw hch]
  rfl

theorem exec_terminal_completes (hn : s.cfg.twN ≠ 0) :
    ∃ t, exec i s = .next t ∧ Completes s (outermostEvents s.cfg i) (defaultResult i) t := by
  obtain ⟨bs, t, -, he, ht⟩ := exec_completes htw s
  rw [commandEvents_terminal htw hch, commandResult_terminal htw hch, if_neg hn] at ht
  exact ⟨t, he, ht⟩

end TerminalExec

/-! ## The byte operations name one data pin (40 R75) -/

/-- Restart, write and read on a channel: no broadcast, no data pin but the channel's. -/
theorem byteOperation_within (hi : (∃ abyte, i = .twRestart ch abyte) ∨ (∃ v, i = .twWrite ch v) ∨
    ∃ last, i = .twRead ch last) (bs : List Bit) :
    AllWithin ((channelPin c ch).toList ++ [c.twScl]) false (commandEvents c i bs) := by
  have hpin {p : PinId} (hp : channelPin c ch = some p) : p ∈ (channelPin c ch).toList ++ [c.twScl] := by simp [hp]
  have hscl : c.twScl ∈ (channelPin c ch).toList ++ [c.twScl] := by simp
  obtain ⟨abyte, rfl⟩ | ⟨v, rfl⟩ | ⟨last, rfl⟩ := hi
  · exact channelEvents_within (fun p hp => restartEvents_within (hpin hp) hscl _) allWithin_nil
  · exact channelEvents_within (fun p hp => writeEvents_within (hpin hp) hscl _) allWithin_nil
  · exact channelEvents_within (fun p hp => readEvents_within (hpin hp) hscl _) allWithin_nil

end Sys2Proof.Proofs

/-! SUPPORT. What events performed twice leave (spec/20_memory.md R42), and samples that are all scripted (log 4). -/

namespace Sys2Proof.Proofs

open Sys2Proof.Machine Sys2Proof.Safety Sys2Proof.Laws

variable {s t u : State} {i : Instr} {es : List PinEvent}

/-! ## Events repeated (20 R42) -/

/-- A function that keeps its argument or forgets it: what events do to one field of one pin. -/
def KeepsOrSets {α : Type} (f : α → α) : Prop := (∀ x, f x = x) ∨ ∃ d, ∀ x, f x = d

section KeepsOrSets
variable {α : Type} {f g : α → α}

theorem keepsOrSets_id : KeepsOrSets fun x : α => x := .inl fun _ => rfl

theorem keepsOrSets_ite (P : Prop) [Decidable P] (d : α) : KeepsOrSets fun x : α => if P then d else x := by
  by_cases h : P
  · exact .inr ⟨d, fun _ => if_pos h⟩
  · exact .inl fun _ => if_neg h

theorem KeepsOrSets.comp (hg : KeepsOrSets g) (hf : KeepsOrSets f) : KeepsOrSets fun x => g (f x) := by
  obtain hg | ⟨d, hg⟩ := hg
  · simpa only [hg] using hf
  · exact .inr ⟨d, fun x => hg (f x)⟩

theorem KeepsOrSets.twice (hf : KeepsOrSets f) (x : α) : f (f x) = f x := by
  obtain hf | ⟨d, hf⟩ := hf
  · exact hf (f x)
  · rw [hf, hf]

end KeepsOrSets

theorem keepsOrSets_lastDir (q : PinId) (es : List PinEvent) : KeepsOrSets fun x => lastDir q x es := by
  induction es with
  | nil => exact keepsOrSets_id
  | cons e es ih =>
    cases e with
    | dir p d => exact ih.comp (keepsOrSets_ite ..)
    | lvl _ _ | pull _ _ | bcast _ | wait | smp _ _ => exact ih

theorem keepsOrSets_lastLvl (sda : List PinId) (q : PinId) (es : List PinEvent) :
    KeepsOrSets fun y => lastLvl sda q y es := by
  induction es with
  | nil => exact keepsOrSets_id
  | cons e es ih =>
    cases e with
    | lvl p b => exact ih.comp (keepsOrSets_ite ..)
    | bcast b => exact ih.comp (keepsOrSets_ite ..)
    | dir _ _ | pull _ _ | wait | smp _ _ => exact ih

theorem keepsOrSets_lastPull (q : PinId) (es : List PinEvent) : KeepsOrSets fun y => lastPull q y es := by
  induction es with
  | nil => exact keepsOrSets_id
  | cons e es ih =>
    cases e with
    | pull p b => exact ih.comp (keepsOrSets_ite ..)
    | dir _ _ | lvl _ _ | bcast _ | wait | smp _ _ => exact ih

/-- The same events performed again leave every pin as they left it, whatever result was written between. -/
theorem samePins_of_performs_twice {r : Result} (h : Performs s es t) (k : Performs (writeRes r t) es u) :
    SamePins t u := by
  intro q
  refine ⟨(k.dirOf q).trans ?_, (k.latOf q).trans ?_, (k.puOf q).trans ?_⟩
  · change lastDir q (t.dirOf q) es = t.dirOf q
    rw [h.dirOf]
    exact (keepsOrSets_lastDir q es).twice _
  · change lastLvl t.cfg.twSda q (t.latOf q) es = t.latOf q
    rw [h.cfg, h.latOf]
    exact (keepsOrSets_lastLvl _ q es).twice _
  · change lastPull q (t.puOf q) es = t.puOf q
    rw [h.puOf]
    exact (keepsOrSets_lastPull q es).twice _

/-- A command that takes no sample performs the same events from every state of one configuration. -/
theorem exec_performs_of_no_samples (hi : sampleCount s.cfg i = 0) :
    ∃ r t, exec i s = .next (writeRes r t) ∧ Performs s (commandEvents s.cfg i []) t := by
  obtain ⟨bs, t, hl, he, hp, -⟩ := exec_performs i s
  obtain rfl := List.length_eq_zero_iff.1 (hl.trans hi)
  exact ⟨_, t, he, hp⟩

/-! ## Scripted answers (log 4) -/

/-- The samples are the scripted answers, as far as these reach. -/
theorem samplesIn_eq_of_envAnswers {a rest : List Bit} {tr : List Event} (h : EnvAnswers (a ++ rest) tr es)
    (hl : (samplesIn es).length = a.length) : samplesIn es = a := by
  induction es generalizing a tr with
  | nil => exact (List.length_eq_zero_iff.1 hl.symm).symm
  | cons e es ih =>
    cases e with
    | smp p b =>
      obtain ⟨x, a, rfl⟩ := List.exists_cons_of_length_eq_add_one hl.symm
      obtain ⟨hb, h⟩ := h
      rw [samplesIn, ih h (Nat.succ.inj hl), hb]
      rfl
    | dir _ _ | lvl _ _ | pull _ _ | bcast _ | wait => exact ih h hl

/-- A two-wire command whose samples are all scripted takes the scripted answers and leaves the rest. -/
theorem exec_scripted {a rest : List Bit} (htw : isTwoWire i = true) (hs : s.answers = a ++ rest)
    (hl : a.length = sampleCount s.cfg i) :
    ∃ t, exec i s = .next t ∧ t.res = commandResult s.cfg i a ∧ t.answers = rest ∧ t.cfg = s.cfg := by
  obtain ⟨bs, t, hbs, he, ht⟩ := exec_completes htw s
  have hsamples := samplesIn_commandEvents hbs
  have henv := ht.env
  rw [hs] at henv
  obtain rfl : bs = a := hsamples.symm.trans (samplesIn_eq_of_envAnswers henv (by rw [hsamples, hbs, hl]))
  refine ⟨t, he, ht.res, ?_, ht.control.1⟩
  rw [ht.answers, hsamples, hs, List.drop_left]

end Sys2Proof.Proofs

/-! PROOFS. The statements of spec/40_twowire.md. -/

namespace Sys2Proof.Proofs

open Sys2Proof.Machine Sys2Proof.Safety Sys2Proof.Laws

/-- Settles O22: no sample is taken, so the events alone fix the pins. -/
theorem twInitResult : Obligations.TwInitResult := by
  intro s outer _ hn
  obtain ⟨t, he, ht⟩ := twInit_completes outer hn
  have hdir q := (ht.dirOf q).trans lastDir_initEvents
  have hlat q := (ht.latOf q).trans lastLvl_initEvents
  have hcfg : t.cfg = s.cfg := ht.control.1
  have hans : t.answers = s.answers := by rw [ht.answers, samplesIn_initEvents]; rfl
  refine ⟨t, he, ht.appended, ht.res, hdir, hlat, ht.puOf, hans, ht.control, ?_⟩
  rintro rfl
  rw [BusIdle, TwDriven, hcfg]
  exact ⟨⟨fun p hp => (hdir p).trans (if_pos (.inl hp)), (hdir _).trans (if_pos (.inr ⟨rfl, rfl⟩))⟩,
    fun p hp => (hlat p).trans (if_pos (.inl hp)), (hlat _).trans (if_pos (.inr ⟨rfl, rfl⟩))⟩

/-- Settles O23: the two events of START-PART before the byte write fix every other data pin's latch. -/
theorem twStartResult : Obligations.TwStartResult := by
  intro s ch abyte p hadm hp
  obtain ⟨a, t, he, ht⟩ := twStart_completes hp abyte
  exact ⟨a, t, he, ht.appended, ht.env, ht.answers.trans List.drop_one, ht.res,
    fun q => (ht.dirOf q).trans lastDir_startEvents,
    fun q => (ht.latOf q).trans (lastLvl_startEvents (channelPin_ne_twScl hadm hp)), ht.puOf, ht.control⟩

/-- Settles O24: the clock rises while the data pin still holds its last level, and the byte write follows. -/
theorem twRestartResult : Obligations.TwRestartResult := by
  intro s ch abyte p hadm hp
  obtain ⟨a, t, he, ht⟩ := twRestart_completes hp abyte
  exact ⟨a, t, he, ht.appended, ht.env, ht.answers.trans List.drop_one, ht.res,
    fun q => (ht.dirOf q).trans lastDir_restartEvents,
    fun q => (ht.latOf q).trans (lastLvl_restartEvents (channelPin_ne_twScl hadm hp)), ht.puOf, ht.control⟩

/-- Settles O25: the latches end high and no direction changes, so driven pins leave the bus idle. -/
theorem twStopResult : Obligations.TwStopResult := by
  intro s ch p _ hp
  obtain ⟨t, he, ht⟩ := twStop_completes hp
  have hlat q := (ht.latOf q).trans (lastLvl_stopEvents (channelPin_mem hp))
  have hcfg : t.cfg = s.cfg := ht.control.1
  refine ⟨t, he, ht.appended, ht.res, ht.dirOf, hlat, ht.puOf, ht.answers, ht.control, ?_⟩
  rintro ⟨hsda, hscl⟩
  rw [BusIdle, TwDriven, hcfg]
  exact ⟨⟨fun p hp => (ht.dirOf p).trans (hsda p hp), (ht.dirOf _).trans hscl⟩,
    fun p hp => (hlat p).trans (if_pos (.inl hp)), (hlat _).trans (if_pos (.inr rfl))⟩

/-- Settles O26: the byte write alone, its one sample giving the result. -/
theorem twWriteResult : Obligations.TwWriteResult := by
  intro s ch v p hadm hp
  obtain ⟨a, t, he, ht⟩ := twWrite_completes hp v
  exact ⟨a, t, he, ht.appended, ht.env, ht.answers.trans List.drop_one, ht.res,
    fun q => (ht.dirOf q).trans lastDir_writeEvents,
    fun q => (ht.latOf q).trans (lastLvl_writeEvents (channelPin_ne_twScl hadm hp)), ht.puOf, ht.control⟩

/-- Settles O27: the byte read alone, its eight samples giving the result. -/
theorem twReadResult : Obligations.TwReadResult := by
  intro s ch last p hadm hp
  obtain ⟨bs, t, hl, he, ht⟩ := twRead_completes hp last
  have hans : t.answers = s.answers.drop 8 := by rw [ht.answers, samplesIn_readEvents, hl]
  exact ⟨bs, t, hl, he, ht.appended, ht.env, hans, ht.res,
    fun q => (ht.dirOf q).trans lastDir_readEvents,
    fun q => (ht.latOf q).trans (lastLvl_readEvents (channelPin_ne_twScl hadm hp)), ht.puOf, ht.control⟩

/-- Settles O28: the byte written between start and stop. -/
theorem twWritebyteResult : Obligations.TwWritebyteResult := by
  intro s ch addr7 v p _ hp
  obtain ⟨a1, a2, t, he, ht⟩ := twWritebyte_completes hp addr7 v
  rw [addressByte_write] at ht
  exact ⟨a1, a2, t, he, ⟨ht.appended, ht.env⟩, ht.answers, ht.res,
    fun q => (ht.dirOf q).trans (lastDir_transaction (fun _ => lastDir_writeEvents) _),
    fun q => (ht.latOf q).trans
      (lastLvl_transaction (writeEvents_within (by simp) (by simp) v) (channelPin_mem hp) _), ht.puOf, ht.control⟩

/-- Settles O29: the byte read between start and stop; the address acknowledgment is the first of nine samples. -/
theorem twReadbyteResult : Obligations.TwReadbyteResult := by
  intro s ch addr7 p _ hp
  obtain ⟨a1, bs, t, hl, he, ht⟩ := twReadbyte_completes hp addr7
  rw [addressByte_read] at ht
  have hans : t.answers = s.answers.drop 9 := by
    rw [ht.answers, samplesIn_append, samplesIn_append, samplesIn_readEvents, List.length_append, List.length_append, hl]
    rfl
  exact ⟨a1, bs, t, hl, he, ⟨ht.appended, ht.env⟩, hans, ht.res,
    fun q => (ht.dirOf q).trans (lastDir_transaction (fun _ => lastDir_readEvents) _),
    fun q => (ht.latOf q).trans
      (lastLvl_transaction (readEvents_within (by simp) (by simp) bs) (channelPin_mem hp) _), ht.puOf, ht.control⟩

/-- Settles O30: in the terminal case a command performs its outermost part, which is empty for the byte operations and on
an empty chain. -/
theorem terminalCaseDefaults : Obligations.TerminalCaseDefaults := by
  refine ⟨fun i s hn htw => exec_terminal_silent htw (fun ch _ => hn ▸ Nat.zero_le ch) (.inl hn), ?_⟩
  intro s ch abyte v addr7 last hn hch
  have range {i : Instr} (hi : i.channel? = some ch) : ∀ c, i.channel? = some c → s.cfg.twN ≤ c := fun c hc => by
    rwa [← Option.some.inj (hi.symm.trans hc)]
  refine ⟨exec_terminal_silent rfl (range rfl) (.inr rfl), exec_terminal_silent rfl (range rfl) (.inr rfl),
    exec_terminal_silent rfl (range rfl) (.inr rfl), fun i hi => ?_⟩
  obtain ⟨htw, hchannel⟩ : isTwoWire i = true ∧ i.channel? = some ch := by
    obtain rfl | rfl | rfl | rfl := hi <;> exact ⟨rfl, rfl⟩
  obtain ⟨t, he, ht⟩ := exec_terminal_completes htw (range hchannel) hn.ne'
  refine ⟨t, he, ht.res, ?_, fun q => (ht.latOf q).trans ?_, fun q => ⟨(ht.dirOf q).trans ?_, ht.puOf q⟩,
    ht.answers.trans ?_, ht.control⟩
  · convert ht.appended using 1
    obtain rfl | rfl | rfl | rfl := hi <;> simp [outermostEvents]
  · by_cases hq : q ∈ s.cfg.twSda <;> obtain rfl | rfl | rfl | rfl := hi <;> simp [outermostEvents, lastLvl, hq]
  · obtain rfl | rfl | rfl | rfl := hi <;> rfl
  · obtain rfl | rfl | rfl | rfl := hi <;> rfl

/-- Settles O31: the rises are those of the byte write, and the result negates its one sample. -/
theorem writeShiftsOutMsbFirst : Obligations.WriteShiftsOutMsbFirst := by
  intro s ch v p hadm hp
  obtain ⟨a, t, he, ht⟩ := twWrite_completes hp v
  have hrises := dataAtRises_writeEvents (y := s.latOf p) (v := v) (a := a) (channelPin_ne_twScl hadm hp)
  refine ⟨t, _, a, he, ht.appended, ?_, ?_, rfl, ?_, ?_⟩
  · rw [hrises]; rfl
  · rw [hrises]; rfl
  · simp [ht.res]
  · simp [ht.res]

/-- Settles O32: the script gives both commands their samples, and the bits of `v` in wire order make `v`. -/
theorem writeThenEchoReturnsTheByte : Obligations.WriteThenEchoReturnsTheByte := by
  intro s ch addr7 v rest _ hch hans
  obtain ⟨t, het, hrt, hat, hct⟩ := exec_scripted (i := .twWritebyte ch addr7 v) (a := [false, false]) rfl hans
    (if_pos hch).symm
  obtain ⟨u, heu, hru, hau, -⟩ := exec_scripted (s := t) (i := .twReadbyte ch addr7) (a := false :: msbFirst v)
    (rest := rest) rfl hat (by rw [hct]; exact (if_pos hch).symm)
  refine ⟨t, u, het, hrt.trans (if_pos hch), heu, ?_, hau⟩
  rw [hru, hct, commandResult, if_pos hch, List.tail_cons, byteOfSamples_msbFirst]

/-- Settles O34: the byte operations stay within the channel's pin and the clock; a serial-clock command makes no
broadcast. -/
theorem channelsAreIndependent : Obligations.ChannelsAreIndependent := by
  intro i s hadm
  obtain ⟨bs, t, -, he, hp, -⟩ := exec_performs i s
  refine ⟨_, _, he, hp.trace, ?named, ?broadcast⟩
  case named =>
    intro ch abyte v last hi e hmem q hq hn
    have within := byteOperation_within (c := s.cfg) (ch := ch) (hi.imp (⟨_, ·⟩) (.imp (⟨_, ·⟩) (⟨_, ·⟩))) bs
    have hmemq := (within e hmem).1 q hn
    rw [List.mem_append, Option.mem_toList, List.mem_singleton] at hmemq
    exact hmemq.resolve_right fun e => twScl_notMem_twSda hadm (e ▸ hq)
  case broadcast =>
    rintro ⟨b, hmem⟩
    have silent {ps : List PinId} (h : AllWithin ps false (commandEvents s.cfg i bs)) : False :=
      Bool.false_ne_true ((h _ hmem).2 rfl)
    cases i with
    | twInit outer => exact .inl ⟨outer, rfl⟩
    | twStart ch abyte => exact .inr (.inl ⟨ch, abyte, rfl⟩)
    | twStop ch => exact .inr (.inr (.inl ⟨ch, rfl⟩))
    | twWritebyte ch addr7 v => exact .inr (.inr (.inr (.inl ⟨ch, addr7, v, rfl⟩)))
    | twReadbyte ch addr7 => exact .inr (.inr (.inr (.inr ⟨ch, addr7, rfl⟩)))
    | twRestart ch abyte => exact (silent (byteOperation_within (ch := ch) (.inl ⟨abyte, rfl⟩) bs)).elim
    | twWrite ch v => exact (silent (byteOperation_within (ch := ch) (.inr (.inl ⟨v, rfl⟩)) bs)).elim
    | twRead ch last => exact (silent (byteOperation_within (ch := ch) (.inr (.inr ⟨last, rfl⟩)) bs)).elim
    | scBegin | scSend _ | scReceive | scTransfer _ => exact (silent (commandEvents_within s.cfg _ bs)).elim

/-- Settles O37: without the sampled values the events of a command depend on the configuration alone. -/
theorem eventShapeIgnoresSamples : Obligations.EventShapeIgnoresSamples := by
  intro i s s' hcfg
  obtain ⟨bs, t, hl, he, hp, -⟩ := exec_performs i s
  obtain ⟨bs', t', hl', he', hp', -⟩ := exec_performs i s'
  refine ⟨_, _, _, _, he, he', hp.trace, hp'.trace, ?_⟩
  rw [map_shape_commandEvents, map_shape_commandEvents, ← hcfg, blank_eq_of_length (hl.trans (hcfg ▸ hl'.symm))]

/-- Settles O40: neither command takes a sample, so both runs perform the same events. -/
theorem repeatedSetupKeepsPins : Obligations.RepeatedSetupKeepsPins := by
  intro s i hi
  have silent (s : State) : sampleCount s.cfg i = 0 := by
    obtain ⟨outer, rfl⟩ | rfl := hi <;> rfl
  obtain ⟨r, t, het, hpt⟩ := exec_performs_of_no_samples (silent s)
  obtain ⟨r', u, heu, hpu⟩ := exec_performs_of_no_samples (silent (writeRes r t))
  rw [writeRes_cfg, hpt.cfg] at hpu
  exact ⟨_, _, _, het, heu, hpt.trace, hpu.trace, (samePins_of_performs_twice hpt hpu : SamePins t u)⟩

end Sys2Proof.Proofs

/-! SUPPORT. A serial-clock byte as its eight bits, each sent, sampled or both, and what their events say of each pin
(spec/41_serialclock.md R79, R83, R84). -/

namespace Sys2Proof.Proofs

open Sys2Proof.Machine Sys2Proof.Safety Sys2Proof.Laws

/-- One bit of the serial-clock protocol: the level sent and the level sampled, each if there is one (41 R79). -/
structure ClockedBit where
  sent : Option Bit
  sampled : Option Bit

/-- The events of one bit by the table of 41 R84. -/
def ClockedBit.events (c : Config) (x : ClockedBit) : List PinEvent :=
  scBitEvents c (x.sent.toList.map (.lvl c.scOut)) (x.sampled.toList.map (.smp c.scIn))

/-- The events of bits clocked one after the other. -/
def bitsEvents (c : Config) (xs : List ClockedBit) : List PinEvent := xs.flatMap (ClockedBit.events c)

/-- The level of the output, `y` before, after bits have been clocked: the last one sent, if any (41 R85). -/
def lastSent (y : Held Bit) (xs : List ClockedBit) : Held Bit :=
  (xs.filterMap ClockedBit.sent).foldl (fun _ b => .is b) y

/-- The serial-clock commands that clock a byte: all but SC.BEGIN. -/
def ClocksByte (i : Instr) : Prop := (∃ v, i = .scSend v) ∨ i = .scReceive ∨ ∃ v, i = .scTransfer v

/-- The bits that a command clocks when its samples read `bs` (41 R80 to R82); none if it clocks no byte. -/
def clockedBits (i : Instr) (bs : List Bit) : List ClockedBit :=
  match i with
  | .scSend v => (msbFirst v).map fun b => ⟨some b, none⟩
  | .scReceive => bs.map fun a => ⟨none, some a⟩
  | .scTransfer v => ((msbFirst v).zip bs).map fun x => ⟨some x.1, some x.2⟩
  | _ => []

/-! ## Lists of events piece by piece -/

theorem levelsOf_append (q : PinId) (es fs : List PinEvent) : levelsOf q (es ++ fs) = levelsOf q es ++ levelsOf q fs := by
  induction es with
  | nil => rfl
  | cons e es ih =>
    cases e with
    | lvl p b => simp [levelsOf, ih]
    | dir _ _ | pull _ _ | bcast _ | wait | smp _ _ => exact ih

theorem levelAtSamples_append (q : PinId) (y : Held Bit) (es fs : List PinEvent) :
    levelAtSamples q y (es ++ fs) = levelAtSamples q y es ++ levelAtSamples q (lastLvl [] q y es) fs := by
  induction es generalizing y with
  | nil => rfl
  | cons e es ih =>
    cases e with
    | smp p b => exact congrArg (y :: ·) (ih y)
    | bcast b => simpa [levelAtSamples, lastLvl] using ih y
    | dir _ _ | lvl _ _ | pull _ _ | wait => exact ih _

/-! ## The serial-clock pins (00 R7) -/

theorem scOut_ne_scClk {c : Config} (h : admitted c = true) : c.scOut ≠ c.scClk := by
  have distinct : [c.twScl, c.scClk, c.scIn, c.scOut].Nodup := (List.nodup_append.1 (admitted_iff.1 h).1).2.1
  intro e
  simp [e] at distinct

/-- A serial-clock command is SC.BEGIN or clocks a byte. -/
theorem clocksByte_of_ne_scBegin {i : Instr} (htw : isTwoWire i = false) (hb : i ≠ .scBegin) : ClocksByte i := by
  cases i with
  | scBegin => exact absurd rfl hb
  | scSend v => exact .inl ⟨v, rfl⟩
  | scReceive => exact .inr (.inl rfl)
  | scTransfer v => exact .inr (.inr ⟨v, rfl⟩)
  | twInit _ | twStart _ _ | twRestart _ _ | twStop _ | twWrite _ _ | twRead _ _ | twWritebyte _ _ _ | twReadbyte _ _ =>
    cases htw

theorem ClocksByte.not_twoWire {i : Instr} (h : ClocksByte i) : isTwoWire i = false := by
  obtain ⟨v, rfl⟩ | rfl | ⟨v, rfl⟩ := h <;> rfl

section Bits
variable {c : Config} {q : PinId} {sda : List PinId} {xs : List ClockedBit} {x : ClockedBit} {y : Held Bit}
  {i : Instr} {v : Byte} {bs : List Bit}

theorem bitsEvents_cons : bitsEvents c (x :: xs) = x.events c ++ bitsEvents c xs := List.flatMap_cons

/-! ## The commands' bits (41 R80 to R82) -/

theorem commandEvents_eq_bitsEvents (h : ClocksByte i) : commandEvents c i bs = bitsEvents c (clockedBits i bs) := by
  obtain ⟨v, rfl⟩ | rfl | ⟨v, rfl⟩ := h
  all_goals rw [bitsEvents, clockedBits, List.flatMap_map]; rfl

theorem length_clockedBits (h : ClocksByte i) (hl : bs.length = sampleCount c i) : (clockedBits i bs).length = 8 := by
  obtain ⟨v, rfl⟩ | rfl | ⟨v, rfl⟩ := h
  · rfl
  · exact (List.length_map _).trans hl
  · rw [clockedBits, List.length_map, List.length_zip, hl]; rfl

theorem lastSent_send : lastSent y (clockedBits (.scSend v) bs) = .is (v.getLsbD 0) := rfl

theorem lastSent_receive : lastSent y (clockedBits .scReceive bs) = y := by
  simp [lastSent, clockedBits, List.filterMap_map]

theorem lastSent_transfer (h : bs.length = 8) : lastSent y (clockedBits (.scTransfer v) bs) = .is (v.getLsbD 0) := by
  obtain ⟨b7, b6, b5, b4, b3, b2, b1, b0, rfl⟩ := eight_cases h
  rfl

/-! ## One bit (41 R79, R84) -/

/-- The clock leaves idle and returns; the phase decides on which of its two edges the output and the sample stand. -/
theorem clockedBit_events_eq : x.events c =
    if c.scCpha then .lvl c.scClk (!c.scCpol) :: (x.sent.toList.map (.lvl c.scOut)
      ++ .lvl c.scClk c.scCpol :: x.sampled.toList.map (.smp c.scIn))
    else x.sent.toList.map (.lvl c.scOut) ++ .lvl c.scClk (!c.scCpol) :: (x.sampled.toList.map (.smp c.scIn)
      ++ [.lvl c.scClk c.scCpol]) := by
  cases hp : c.scCpol <;> cases ha : c.scCpha <;> simp [ClockedBit.events, scBitEvents, hp, ha]

theorem lastDir_clockedBit (d : Held Dir) : lastDir q d (x.events c) = d := by
  rw [clockedBit_events_eq]
  obtain ⟨_ | b, _ | a⟩ := x <;> split <;> rfl

theorem lastPull_clockedBit : lastPull q y (x.events c) = y := by
  rw [clockedBit_events_eq]
  obtain ⟨_ | b, _ | a⟩ := x <;> split <;> rfl

/-- In both phases the last level that a bit gives the clock is the idle one. -/
theorem lastLvl_clockedBit : lastLvl sda q y (x.events c) =
    if q = c.scClk then .is c.scCpol else if q = c.scOut then x.sent.elim y .is else y := by
  rw [clockedBit_events_eq]
  by_cases hc : q = c.scClk
  · obtain ⟨_ | b, _ | a⟩ := x <;> split <;> simp [lastLvl, hc]
  · obtain ⟨_ | b, _ | a⟩ := x <;> split <;> simp [lastLvl, Ne.symm hc, eq_comm (a := q)]

theorem levelsOf_clockedBit (h : c.scOut ≠ c.scClk) : levelsOf c.scClk (x.events c) = [!c.scCpol, c.scCpol] := by
  rw [clockedBit_events_eq]
  obtain ⟨_ | b, _ | a⟩ := x <;> split <;> simp [levelsOf, h]

/-- The edge before the sample sets the clock to 1 exactly where the two flags agree. -/
theorem levelAtSamples_scClk_clockedBit (hx : x.sampled.isSome) :
    levelAtSamples c.scClk y (x.events c) = [.is (decide (c.scCpol = c.scCpha))] := by
  rw [clockedBit_events_eq]
  obtain ⟨_ | b, _ | a⟩ := x
  case none.some | some.some => split <;> simp [levelAtSamples, *]
  case none.none | some.none => cases hx

theorem levelAtSamples_scOut_clockedBit (h : c.scOut ≠ c.scClk) (b a : Bit) :
    levelAtSamples c.scOut y (ClockedBit.events c ⟨some b, some a⟩) = [.is b] := by
  rw [clockedBit_events_eq]
  split <;> simp [levelAtSamples, h.symm]

/-! ## Bits one after the other -/

theorem lastDir_bitsEvents (d : Held Dir) : lastDir q d (bitsEvents c xs) = d := by
  induction xs with
  | nil => rfl
  | cons x xs ih => rw [bitsEvents_cons, lastDir_append, lastDir_clockedBit, ih]

theorem lastPull_bitsEvents : lastPull q y (bitsEvents c xs) = y := by
  induction xs with
  | nil => rfl
  | cons x xs ih => rw [bitsEvents_cons, lastPull_append, lastPull_clockedBit, ih]

theorem lastSent_cons : lastSent y (x :: xs) = lastSent (x.sent.elim y .is) xs := by
  obtain ⟨_ | b, a⟩ := x <;> rfl

theorem lastLvl_bitsEvents (hxs : xs ≠ []) : lastLvl sda q y (bitsEvents c xs) =
    if q = c.scClk then .is c.scCpol else if q = c.scOut then lastSent y xs else y := by
  induction xs generalizing y with
  | nil => exact absurd rfl hxs
  | cons x xs ih =>
    rw [bitsEvents_cons, lastLvl_append, lastLvl_clockedBit, lastSent_cons]
    cases xs with
    | nil => rfl
    | cons x' xs => rw [ih (List.cons_ne_nil _ _)]; split_ifs <;> rfl

theorem levelsOf_bitsEvents (h : c.scOut ≠ c.scClk) :
    levelsOf c.scClk (bitsEvents c xs) = (List.replicate xs.length [!c.scCpol, c.scCpol]).flatten := by
  induction xs with
  | nil => rfl
  | cons x xs ih =>
    rw [bitsEvents_cons, levelsOf_append, levelsOf_clockedBit h, ih, List.length_cons, List.replicate_succ,
      List.flatten_cons]

/-- What every sample finds on a pin, where each bit alone decides it. -/
theorem levelAtSamples_bitsEvents (f : ClockedBit → Held Bit)
    (h : ∀ x ∈ xs, ∀ y, levelAtSamples q y (x.events c) = [f x]) :
    levelAtSamples q y (bitsEvents c xs) = xs.map f := by
  induction xs generalizing y with
  | nil => rfl
  | cons x xs ih =>
    obtain ⟨hx, hxs⟩ := List.forall_mem_cons.1 h
    rw [bitsEvents_cons, levelAtSamples_append, hx, ih hxs]
    rfl

/-- Every sample of SC.TRANSFER finds on the output the bit just sent. -/
theorem levelAtSamples_transferEvents (h : c.scOut ≠ c.scClk) (hl : bs.length = 8) :
    levelAtSamples c.scOut y (commandEvents c (.scTransfer v) bs) = (msbFirst v).map .is := by
  rw [commandEvents_eq_bitsEvents (.inr (.inr ⟨v, rfl⟩)), levelAtSamples_bitsEvents fun x => x.sent.elim .unk .is]
  · obtain ⟨b7, b6, b5, b4, b3, b2, b1, b0, rfl⟩ := eight_cases hl
    rfl
  · intro x hx y
    obtain ⟨⟨b, a⟩, -, rfl⟩ := List.mem_map.1 hx
    exact levelAtSamples_scOut_clockedBit h b a

end Bits
end Sys2Proof.Proofs

/-! SUPPORT. What a completed serial-clock command leaves behind: SC.BEGIN by its six events, and the three commands that
clock a byte once for all of them (spec/41_serialclock.md R78, R80 to R82). -/

namespace Sys2Proof.Proofs

open Sys2Proof.Machine Sys2Proof.Safety Sys2Proof.Laws

variable {s t u : State} {i : Instr} {es : List PinEvent} {bs : List Bit} {c : Config} {q : PinId}

/-! ## SC.BEGIN (41 R78) -/

theorem exec_scBegin (s : State) : exec .scBegin s = .next (writeRes .none (performAll (beginEvents s.cfg) s)) := rfl

theorem lastDir_beginEvents (h : admitted c = true) (d : Held Dir) : lastDir q d (beginEvents c) =
    if q = c.scIn then .is .input else if q = c.scOut ∨ q = c.scClk then .is .output else d := by
  obtain ⟨hclk, hout⟩ := admitted_scIn h
  by_cases hin : q = c.scIn
  · simp [beginEvents, lastDir, hin, hclk.symm, hout.symm]
  · by_cases hc : q = c.scClk
    · simp [beginEvents, lastDir, hc, hclk.symm]
    · simp [beginEvents, lastDir, hin, hc, Ne.symm hin, Ne.symm hc, eq_comm (a := q)]

theorem lastLvl_beginEvents {sda : List PinId} (h : admitted c = true) (y : Held Bit) : lastLvl sda q y (beginEvents c) =
    if q = c.scClk then .is c.scCpol else if q = c.scOut then .is (!c.scCpha) else y := by
  by_cases hc : q = c.scClk
  · simp [beginEvents, lastLvl, hc, scOut_ne_scClk h]
  · simp [beginEvents, lastLvl, hc, Ne.symm hc, eq_comm (a := q)]

theorem lastPull_beginEvents (y : Held Bit) : lastPull q y (beginEvents c) =
    if q = c.scIn then .is c.scPullup else y := by
  simp [beginEvents, lastPull, eq_comm (a := q)]

theorem levelsOf_beginEvents (h : admitted c = true) : levelsOf c.scClk (beginEvents c) = [c.scCpol] := by
  simp [beginEvents, levelsOf, scOut_ne_scClk h]

/-! ## The commands that clock a byte (41 R80 to R82) -/

/-- `t` is what a command that clocks a byte leaves of `s` when its samples read `bs` (20 R33, 41 R80 to R82). -/
structure ByteClocked (s : State) (i : Instr) (bs : List Bit) (t : State) : Prop where
  length : bs.length = sampleCount s.cfg i
  appended : Appended s t (commandEvents s.cfg i bs)
  res : t.res = commandResult s.cfg i bs
  undriven : (∀ a, line s s.cfg.scIn ≠ .driven a) →
    EnvAnswers s.answers s.trace (commandEvents s.cfg i bs) ∧ t.answers = s.answers.drop (sampleCount s.cfg i)
  driven : ∀ a, line s s.cfg.scIn = .driven a → bs = List.replicate (sampleCount s.cfg i) a ∧ t.answers = s.answers
  latOf : ∀ q, t.latOf q = if q = s.cfg.scClk then .is s.cfg.scCpol
    else if q = s.cfg.scOut then lastSent (s.latOf q) (clockedBits i bs) else s.latOf q
  dirOf : ∀ q, t.dirOf q = s.dirOf q
  puOf : ∀ q, t.puOf q = s.puOf q
  control : SameControl s t

theorem exec_byteClocked (h : ClocksByte i) (s : State) (hadm : admitted s.cfg = true) :
    ∃ bs t, exec i s = .next t ∧ ByteClocked s i bs t := by
  obtain ⟨bs, u, hl, he, hp, -, henv, hdriven⟩ := exec_performs i s
  have hbits := commandEvents_eq_bitsEvents (c := s.cfg) (bs := bs) h
  have hxs : clockedBits i bs ≠ [] := List.ne_nil_of_length_pos (by rw [length_clockedBits h hl]; decide)
  refine ⟨bs, _, he, hl, hp.trace, rfl, fun hd => ?_, hl ▸ hdriven h.not_twoWire hadm, fun q => (hp.latOf q).trans ?_,
    fun q => (hp.dirOf q).trans ?_, fun q => (hp.puOf q).trans ?_, hp.cfg, hp.prog, hp.flt, hp.cp⟩
  · obtain ⟨hu, ha⟩ := henv hadm hd
    refine ⟨ha, ?_⟩
    rw [writeRes_answers, hu, performAll_answers, samplesIn_commandEvents hl, hl]
  · rw [hbits, lastLvl_bitsEvents hxs]
  · rw [hbits, lastDir_bitsEvents]
  · rw [hbits, lastPull_bitsEvents]

/-- A command that takes no sample uses no answer. -/
theorem ByteClocked.answers_of_silent (h : ByteClocked s i bs t) (hi : sampleCount s.cfg i = 0) :
    t.answers = s.answers := by
  rcases line_driven_or_env s s.cfg.scIn with ⟨a, hl⟩ | hl
  · exact (h.driven a hl).2
  · rw [(h.undriven hl).2, hi, List.drop_zero]

end Sys2Proof.Proofs

/-! PROOFS. The statements of spec/41_serialclock.md. -/

namespace Sys2Proof.Proofs

open Sys2Proof.Machine Sys2Proof.Safety Sys2Proof.Laws

/-- Settles O42: the six events, read pin by pin. -/
theorem scBeginResult : Obligations.ScBeginResult := by
  intro s hadm
  have hp := Performs.self s (beginEvents s.cfg)
  exact ⟨_, exec_scBegin s, hp.trace, rfl, fun q => (hp.dirOf q).trans (lastDir_beginEvents hadm _),
    fun q => (hp.latOf q).trans (lastLvl_beginEvents hadm _), fun q => (hp.puOf q).trans (lastPull_beginEvents _),
    performAll_answers .., hp.cfg, hp.prog, hp.flt, hp.cp⟩

/-- Settles O43: eight bits sent, none sampled. -/
theorem scSendResult : Obligations.ScSendResult := by
  intro s v hadm
  obtain ⟨bs, t, he, ht⟩ := exec_byteClocked (i := .scSend v) (.inl ⟨v, rfl⟩) s hadm
  obtain rfl := List.length_eq_zero_iff.1 ht.length
  exact ⟨t, he, ht.appended, ht.res, ht.latOf, fun q => ⟨ht.dirOf q, ht.puOf q⟩, ht.answers_of_silent rfl, ht.control⟩

/-- Settles O44: eight bits sampled, none sent. -/
theorem scReceiveResult : Obligations.ScReceiveResult := by
  intro s hadm
  obtain ⟨bs, t, he, ht⟩ := exec_byteClocked (i := .scReceive) (.inr (.inl rfl)) s hadm
  refine ⟨bs, t, ht.length, he, ht.appended, ht.res, ht.undriven, ht.driven, fun q => ?_,
    fun q => ⟨ht.dirOf q, ht.puOf q⟩, ht.control⟩
  rw [ht.latOf, lastSent_receive, ite_self]

/-- Settles O45: eight bits sent and sampled. -/
theorem scTransferResult : Obligations.ScTransferResult := by
  intro s v hadm
  obtain ⟨bs, t, he, ht⟩ := exec_byteClocked (i := .scTransfer v) (.inr (.inr ⟨v, rfl⟩)) s hadm
  refine ⟨bs, t, ht.length, he, ht.appended, ht.res, ht.undriven, ht.driven, fun q => ?_,
    fun q => ⟨ht.dirOf q, ht.puOf q⟩, ht.control⟩
  rw [ht.latOf, lastSent_transfer ht.length]

/-- Settles O46: every bit takes the clock away from idle and back, and SC.BEGIN sets it to idle. -/
theorem scClockShape : Obligations.ScClockShape := by
  intro i s hadm htw
  by_cases hb : i = .scBegin
  · subst hb
    have hp := Performs.self s (beginEvents s.cfg)
    exact ⟨_, _, exec_scBegin s, hp.trace, ((hp.latOf _).trans (lastLvl_beginEvents hadm _)).trans (if_pos rfl),
      levelsOf_beginEvents hadm⟩
  · have hbyte := clocksByte_of_ne_scBegin htw hb
    obtain ⟨bs, t, he, ht⟩ := exec_byteClocked hbyte s hadm
    refine ⟨t, _, he, ht.appended, (ht.latOf _).trans (if_pos rfl), ?_⟩
    rw [commandEvents_eq_bitsEvents hbyte, levelsOf_bitsEvents (scOut_ne_scClk hadm),
      length_clockedBits hbyte ht.length, if_neg hb]

/-- Settles O47: the clock's level at a sample is that of the edge before it, bit by bit. -/
theorem scSampleEdge : Obligations.ScSampleEdge := by
  intro i s hadm hi
  obtain ⟨bs, t, he, ht⟩ := exec_byteClocked (.inr hi) s hadm
  have hsampled : ∀ x ∈ clockedBits i bs, x.sampled.isSome := by
    obtain rfl | ⟨v, rfl⟩ := hi
    all_goals
      intro x hx
      obtain ⟨b, -, rfl⟩ := List.mem_map.1 hx
      rfl
  refine ⟨t, _, he, ht.appended, ?level, ?events⟩
  case level =>
    rw [commandEvents_eq_bitsEvents (.inr hi), levelAtSamples_bitsEvents
      (fun _ => .is (decide (s.cfg.scCpol = s.cfg.scCpha))) fun x hx y => levelAtSamples_scClk_clockedBit (hsampled x hx),
      List.map_const', length_clockedBits (.inr hi) ht.length]
  case events =>
    rintro v rfl
    refine ⟨bs, ht.length, congrArg (List.flatMap · _) (funext fun x => ?_)⟩
    unfold scBitEvents
    cases s.cfg.scCpol <;> cases s.cfg.scCpha <;> rfl

/-- Settles O48: the last bit sent stays latched. -/
theorem scOutputLine : Obligations.ScOutputLine := by
  intro s v hadm
  have hne := scOut_ne_scClk hadm
  refine ⟨?begin, ?send, ?receive⟩
  case begin =>
    have hp := Performs.self s (beginEvents s.cfg)
    refine ⟨_, exec_scBegin s, (hp.latOf _).trans ?_⟩
    rw [lastLvl_beginEvents hadm, if_neg hne, if_pos rfl]
  case send =>
    intro i hi
    have hbyte : ClocksByte i := hi.imp (⟨v, ·⟩) fun h => .inr ⟨v, h⟩
    obtain ⟨bs, t, he, ht⟩ := exec_byteClocked hbyte s hadm
    refine ⟨t, he, ?_, ht.dirOf⟩
    rw [ht.latOf, if_neg hne, if_pos rfl]
    obtain rfl | rfl := hi
    · exact lastSent_send
    · exact lastSent_transfer ht.length
  case receive =>
    obtain ⟨bs, t, he, ht⟩ := exec_byteClocked (i := .scReceive) (.inr (.inl rfl)) s hadm
    refine ⟨t, he, ?_, ht.dirOf⟩
    rw [ht.latOf, if_neg hne, lastSent_receive, ite_self]

/-- Settles O49: the output holds the bit just sent at every sample, so the samples are the bits of the byte. -/
theorem scLoopbackReturnsTheByte : Obligations.ScLoopbackReturnsTheByte := by
  intro s v hadm
  obtain ⟨bs, t, he, ht⟩ := exec_byteClocked (i := .scTransfer v) (.inr (.inr ⟨v, rfl⟩)) s hadm
  refine ⟨t, _, he, ht.appended, fun hloop => ?_⟩
  rw [samplesIn_commandEvents ht.length, levelAtSamples_transferEvents (scOut_ne_scClk hadm) ht.length] at hloop
  obtain rfl : msbFirst v = bs := List.map_injective_iff.2 (fun _ _ => Held.is.inj) hloop
  rw [ht.res, commandResult, byteOfSamples_msbFirst]

end Sys2Proof.Proofs

/-! SUPPORT. How a run ends (spec/10_state.md R28, spec/60_exceptions.md R102): a stopped state ends it, and a step before a
run that ends makes a longer run that ends. -/

namespace Sys2Proof.Proofs

open Sys2Proof.Machine Sys2Proof.Safety Sys2Proof.Laws

variable {s t : State} {n : Nat}

/-! ## The faulted state (10 R23, 60 R89) -/

theorem not_final_of_faulted (h : Faulted s) : ¬ Final s := fun hf => h hf.1

theorem step_ne_next_of_faulted (h : Faulted s) (u : State) : step s ≠ .next u := by
  intro hu
  obtain ⟨w, -, hflt, -⟩ := ready_of_step hu
  exact h hflt

theorem faulted_raiseIllegalCommand (w : Word) (k : Nat) (s : State) : Faulted (raiseIllegalCommand w k s) := nofun

/-! ## Runs that end -/

/-- After at most `n` steps from `s` the run has ended, final or faulted; `cp` did not go back, and `PROG` and the
configuration are those of `s`. -/
def EndsWithin (n : Nat) (s : State) : Prop :=
  ∃ k t, k ≤ n ∧ Host.Core.run Sys2Proof.core k s = .next t ∧ (Final t ∨ Faulted t)
    ∧ s.cp ≤ t.cp ∧ t.prog = s.prog ∧ t.cfg = s.cfg

theorem run_succ_of_step (h : step s = .next t) (k : Nat) :
    Host.Core.run Sys2Proof.core (k + 1) s = Host.Core.run Sys2Proof.core k t := by
  have hstep : Sys2Proof.core.step s = .next t := h
  simp only [Host.Core.run, hstep]

theorem endsWithin_of_stopped (h : Final s ∨ Faulted s) (n : Nat) : EndsWithin n s :=
  ⟨0, s, Nat.zero_le n, rfl, h, Nat.le_refl _, rfl, rfl⟩

theorem endsWithin_succ_of_step (h : step s = .next t) (hcp : s.cp ≤ t.cp) (hprog : t.prog = s.prog)
    (hcfg : t.cfg = s.cfg) (ht : EndsWithin n t) : EndsWithin (n + 1) s := by
  obtain ⟨k, u, hk, hrun, hend, hcpu, hprogu, hcfgu⟩ := ht
  exact ⟨k + 1, u, Nat.succ_le_succ hk, (run_succ_of_step h k).trans hrun, hend, hcp.trans hcpu, hprogu.trans hprog,
    hcfgu.trans hcfg⟩

/-- Every command left either completes, leaving one fewer, or faults and ends the run. -/
theorem endsWithin_of_commands_left (hadm : admitted s.cfg = true) (hflt : s.flt = .none)
    (hn : s.cp + n = s.prog.length) : EndsWithin n s := by
  induction n generalizing s with
  | zero => exact endsWithin_of_stopped (.inl ⟨hflt, hn⟩) 0
  | succ n ih =>
    have hlt : s.cp < s.prog.length := by omega
    have hr : Ready s s.prog[s.cp] := ⟨hadm, hflt, List.getElem?_eq_getElem hlt⟩
    by_cases hd : ∃ i, decode s.prog[s.cp] = .ok i
    · obtain ⟨i, hd⟩ := hd
      obtain ⟨t, ht, hl⟩ := step_legal hr hd
      refine endsWithin_succ_of_step ht (by rw [hl.cp]; exact Nat.le_succ _) hl.prog hl.cfg (ih ?_ ?_ ?_)
      · rw [hl.cfg, hadm]
      · rw [hl.flt, hflt]
      · rw [hl.cp, hl.prog]; omega
    · rw [not_exists] at hd
      exact endsWithin_succ_of_step (step_of_illegal hr hd) (Nat.le_refl _) rfl rfl
        (endsWithin_of_stopped (.inr (faulted_raiseIllegalCommand _ _ _)) n)

end Sys2Proof.Proofs

/-! SUPPORT. Which samples the byte operations take (spec/40_twowire.md R62, R64), and the byte of eight equal samples
(R74). -/

namespace Sys2Proof.Proofs

open Sys2Proof.Machine Sys2Proof.Safety Sys2Proof.Laws

variable {p q scl : PinId} {v : Byte} {a b last : Bit} {bs : List Bit}

theorem smp_mem_writeEvents : .smp q b ∈ writeEvents p scl v a ↔ q = p ∧ b = a := by
  simp [writeEvents, writeBitEvents]

theorem smp_mem_readEvents : .smp q b ∈ readEvents p scl bs last ↔ q = p ∧ b ∈ bs := by
  cases b <;> simp [readEvents, readBitEvents, and_comm]

theorem byteOfSamples_of_all (hl : bs.length = 8) (h : ∀ a ∈ bs, a = b) :
    byteOfSamples bs = if b then 0xFF#8 else 0x00#8 := by
  obtain rfl : bs = List.replicate 8 b := List.eq_replicate_iff.2 ⟨hl, h⟩
  cases b <;> rfl

end Sys2Proof.Proofs

/-! PROOFS. The statements of spec/60_exceptions.md. -/

namespace Sys2Proof.Proofs

open Sys2Proof.Machine Sys2Proof.Safety Sys2Proof.Laws

/-- Settles O11: the step is the raise, and no step starts from a faulted state. -/
theorem illegalWordIsRecordedAndStops : Obligations.IllegalWordIsRecordedAndStops := by
  intro s w hr hd
  have hstep := step_of_illegal hr hd
  refine ⟨hstep, fun t ht => ?_⟩
  obtain rfl : raiseIllegalCommand w s.cp (startCommand w s) = t := by simpa [hstep] using ht
  have hfault := faulted_raiseIllegalCommand w s.cp (startCommand w s)
  exact ⟨hfault, not_final_of_faulted hfault, step_ne_next_of_faulted hfault⟩

/-- Settles O15, by induction on the number of commands left. -/
theorem runEndsFinalOrFaulted : Obligations.RunEndsFinalOrFaulted := fun _ hadm hflt hcp =>
  endsWithin_of_commands_left hadm hflt (Nat.add_sub_cancel' hcp)

/-- Settles O33: each premise fixes every sample of the data line, and the samples fix the result. -/
theorem silentPeerAndStuckLine : Obligations.SilentPeerAndStuckLine := by
  intro s ch v last p _ hp
  have hmem : p ∈ s.cfg.twSda := channelPin_mem hp
  refine ⟨?write, ?read⟩
  case write =>
    obtain ⟨a, t, he, ht⟩ := twWrite_completes hp v
    have sampled : PinEvent.smp p a ∈ writeEvents p s.cfg.twScl v a := smp_mem_writeEvents.2 ⟨rfl, rfl⟩
    refine ⟨t, _, he, ht.appended, fun hhigh => ?_, fun hlow => ?_⟩
    · rw [ht.res, hhigh p hmem a sampled]; rfl
    · rw [ht.res, hlow a sampled]; rfl
  case read =>
    obtain ⟨bs, t, hl, he, ht⟩ := twRead_completes hp last
    have sampled (b : Bit) (hb : b ∈ bs) : PinEvent.smp p b ∈ readEvents p s.cfg.twScl bs last :=
      smp_mem_readEvents.2 ⟨rfl, hb⟩
    refine ⟨t, _, he, ht.appended, fun hhigh => ?_, fun hlow => ?_⟩
    · rw [ht.res, byteOfSamples_of_all hl fun b hb => hhigh p hmem b (sampled b hb)]; rfl
    · rw [ht.res, byteOfSamples_of_all hl fun b hb => hlow b (sampled b hb)]; rfl

end Sys2Proof.Proofs

/-! SUPPORT. How many delays each event list makes (spec/70_reset_and_hazards.md R121). -/

namespace Sys2Proof.Proofs

open Sys2Proof.Machine Sys2Proof.Safety Sys2Proof.Laws

section Waits
variable {es fs : List PinEvent} {p scl : PinId} {v : Byte} {a last outer : Bit} {bs : List Bit} {c : Config}
  {tx rx terminal : List PinEvent} {addressed : PinId → List PinEvent} {ch n : Nat}

/-! ## Lists of events piece by piece -/

theorem waitsIn_append : waitsIn (es ++ fs) = waitsIn es + waitsIn fs := List.count_append

theorem waitsIn_flatMap {α : Type} {f : α → List PinEvent} (h : ∀ a, waitsIn (f a) = n) (l : List α) :
    waitsIn (l.flatMap f) = l.length * n := by
  have hf : List.count PinEvent.wait ∘ f = fun _ => n := funext h
  rw [waitsIn, List.count_flatMap, hf, List.map_const', List.sum_replicate, smul_eq_mul]

/-! ## The two-wire engine (40 R62 to R68) -/

/-- Two delays for each bit, one in the acknowledgment pulse. -/
theorem waitsIn_writeEvents : waitsIn (writeEvents p scl v a) = 17 := rfl

/-- Two delays for each sample, one in the pulse of the controller's own acknowledgment. -/
theorem waitsIn_readEvents : waitsIn (readEvents p scl bs last) = bs.length * 2 + 1 := by
  rw [readEvents, waitsIn_append, waitsIn_append, waitsIn_flatMap (n := 2) (fun _ => rfl), Nat.add_assoc,
    Nat.add_left_comm]
  rfl

theorem waitsIn_startEvents : waitsIn (startEvents p scl v a) = 17 := rfl

theorem waitsIn_restartEvents : waitsIn (restartEvents p scl v a) = 17 := rfl

theorem waitsIn_stopEvents : waitsIn (stopEvents p scl) = 3 := rfl

theorem waitsIn_initEvents : waitsIn (initEvents c outer) = if outer then 1 else 0 := by
  have dirs : waitsIn (c.twSda.map fun p => .dir p .output) = 0 := List.count_eq_zero.2 (by simp)
  rw [initEvents, waitsIn_append, waitsIn_append, dirs]
  cases outer <;> rfl

/-- In range the addressed part, out of range the terminal one, on an empty chain nothing (40 R60). -/
theorem waitsIn_channelEvents (ha : ch < c.twN → ∀ p, waitsIn (addressed p) = n) :
    waitsIn (channelEvents c ch addressed terminal) =
      if c.twN = 0 then 0 else if ch < c.twN then n else waitsIn terminal := by
  by_cases hch : ch < c.twN
  · obtain ⟨p, hp⟩ := channelPin_some hch
    rw [if_neg (Nat.ne_zero_of_lt hch), if_pos hch, ← ha hch p, channelEvents, hp]
  · rw [channelEvents_terminal (Nat.le_of_not_lt hch), if_neg hch, apply_ite waitsIn]
    rfl

theorem waitsIn_channelEvents_of_silent (ha : ch < c.twN → ∀ p, waitsIn (addressed p) = n)
    (ht : waitsIn terminal = 0) :
    waitsIn (channelEvents c ch addressed terminal) = if ch < c.twN then n else 0 := by
  rw [waitsIn_channelEvents ha, ht]
  by_cases hch : ch < c.twN
  · rw [if_neg (Nat.ne_zero_of_lt hch)]
  · rw [if_neg hch, ite_self]

/-! ## The serial-clock engine (41 R78, R84) -/

theorem waitsIn_scBitEvents : waitsIn (scBitEvents c tx rx) = waitsIn tx + waitsIn rx := by
  cases hp : c.scCpol <;> cases ha : c.scCpha <;> simp [scBitEvents, hp, ha, waitsIn]

theorem waitsIn_sendEvents : waitsIn (sendEvents c v) = 0 :=
  waitsIn_flatMap (n := 0) (fun _ => waitsIn_scBitEvents) _

theorem waitsIn_receiveEvents : waitsIn (receiveEvents c bs) = 0 :=
  waitsIn_flatMap (n := 0) (fun _ => waitsIn_scBitEvents) _

theorem waitsIn_transferEvents : waitsIn (transferEvents c v bs) = 0 :=
  waitsIn_flatMap (n := 0) (fun _ => waitsIn_scBitEvents) _

end Waits
end Sys2Proof.Proofs

/-! SUPPORT. The data pins around a transaction: the channels not addressed (spec/70_reset_and_hazards.md R112), and the
level that a restart finds on the addressed one (R113, R118). -/

namespace Sys2Proof.Proofs

open Sys2Proof.Machine Sys2Proof.Safety Sys2Proof.Laws

variable {s t : State} {i : Instr} {c : Config} {ch d : Nat} {p q scl : PinId} {v : Byte} {last : Bit}

/-- Different channels have different data pins (00 R7). -/
theorem channelPin_ne_of_ne (h : admitted c = true) (hp : channelPin c ch = some p) (hq : channelPin c d = some q)
    (hne : d ≠ ch) : q ≠ p := by
  rintro rfl
  have distinct : c.twSda.Nodup := (List.nodup_append.1 (admitted_iff.1 h).1).1
  exact hne ((List.getElem?_inj (channelPin_lt hq) distinct).1 (hq.trans hp.symm))

/-- A byte operation on one channel leaves the data pin of any other as it is (10 R25). -/
theorem byteOperation_keeps_other_channel (hadm : admitted s.cfg = true)
    (hi : (∃ abyte, i = .twRestart ch abyte) ∨ (∃ v, i = .twWrite ch v) ∨ ∃ last, i = .twRead ch last)
    (hp : channelPin s.cfg ch = some p) (hq : channelPin s.cfg d = some q) (hne : d ≠ ch) :
    ∃ t, exec i s = .next t ∧ t.latOf q = s.latOf q ∧ t.dirOf q = s.dirOf q := by
  obtain ⟨bs, t, -, he, ht, -⟩ := exec_performs i s
  have hout : q ∉ (channelPin s.cfg ch).toList ++ [s.cfg.twScl] := by
    simp [hp, channelPin_ne_of_ne hadm hp hq hne, channelPin_ne_twScl hadm hq]
  obtain ⟨hdir, hlat, -⟩ := performs_keeps_pin ht (byteOperation_within hi bs) hout nofun
  exact ⟨_, he, hlat, hdir⟩

/-- What a command that sends or reads a byte on a channel leaves its data pin latched to: the last bit sent, or 1 after a
read (70 R113, R118). -/
theorem latOf_addressed_after_byte (hadm : admitted s.cfg = true) (hp : channelPin s.cfg ch = some p)
    (hi : i = .twStart ch v ∨ i = .twRestart ch v ∨ i = .twWrite ch v ∨ i = .twRead ch last) :
    ∃ t, exec i s = .next t ∧ t.cfg = s.cfg
      ∧ t.latOf p = .is (if i = .twRead ch last then true else v.getLsbD 0) := by
  have hne := channelPin_ne_twScl hadm hp
  obtain rfl | rfl | rfl | rfl := hi
  · obtain ⟨a, t, he, ht⟩ := twStart_completes hp v
    exact ⟨t, he, ht.control.1, by rw [ht.latOf, lastLvl_startEvents hne, if_pos rfl, if_neg nofun]⟩
  · obtain ⟨a, t, he, ht⟩ := twRestart_completes hp v
    exact ⟨t, he, ht.control.1, by rw [ht.latOf, lastLvl_restartEvents hne, if_pos rfl, if_neg nofun]⟩
  · obtain ⟨a, t, he, ht⟩ := twWrite_completes hp v
    exact ⟨t, he, ht.control.1, by rw [ht.latOf, lastLvl_writeEvents hne, if_pos rfl, if_neg nofun]⟩
  · obtain ⟨bs, t, -, he, ht⟩ := twRead_completes hp last
    exact ⟨t, he, ht.control.1, by rw [ht.latOf, lastLvl_readEvents hne, if_pos rfl, if_pos rfl]⟩

/-- A restart's first event is a rising edge of the clock, before any event of the data pin (40 R67). -/
theorem head?_dataAtRises_restartEvents (y : Held Bit) (a : Bit) :
    (dataAtRises p scl y (restartEvents p scl v a)).head? = some y := by
  simp [restartEvents, dataAtRises]

end Sys2Proof.Proofs

/-! SUPPORT. The transaction discipline (spec/70_reset_and_hazards.md R111, log 19): what holds of the two-wire pins in each
phase, and that a disciplined command keeps it. -/

namespace Sys2Proof.Proofs

open Sys2Proof.Machine Sys2Proof.Safety Sys2Proof.Laws

variable {s t : State} {i : Instr} {is : List Instr} {bs : List Bit} {c : Config} {ch : Nat} {q : PinId} {y : Held Bit}
  {ph ph' : Phase}

/-! ## The two-wire pins as one list -/

theorem twDriven_iff : TwDriven s ↔ ∀ q ∈ s.cfg.twSda ++ [s.cfg.twScl], s.dirOf q = .is .output := by
  simp only [TwDriven, List.forall_mem_append, List.forall_mem_singleton]

theorem busIdle_iff :
    BusIdle s ↔ TwDriven s ∧ ∀ q ∈ s.cfg.twSda ++ [s.cfg.twScl], s.latOf q = .is true := by
  simp only [BusIdle, List.forall_mem_append, List.forall_mem_singleton]

/-- A serial-clock command leaves every two-wire pin as it is (10 R18, R29). -/
theorem serialClock_keeps_twPin (hadm : admitted s.cfg = true) (hsc : isTwoWire i = false)
    (h : Performs s (commandEvents s.cfg i bs) t) (hq : q ∈ s.cfg.twSda ++ [s.cfg.twScl]) :
    t.dirOf q = s.dirOf q ∧ t.latOf q = s.latOf q := by
  obtain ⟨hout, hsda⟩ := not_mem_enginePins (i := i) hadm (by rwa [hsc, if_neg Bool.false_ne_true])
  obtain ⟨hdir, hlat, -⟩ := performs_keeps_pin h (commandEvents_within s.cfg i bs) hout hsda
  exact ⟨hdir, hlat⟩

/-! ## Directions: every command leaves the pins driven (40 R62, R64) -/

theorem lastDir_channelEvents {x : Held Dir} {addressed : PinId → List PinEvent} {terminal : List PinEvent}
    (ha : ∀ p, lastDir q x (addressed p) = x) (ht : lastDir q x terminal = x) :
    lastDir q x (channelEvents c ch addressed terminal) = x := by
  unfold channelEvents
  split
  · exact ha _
  · split
    · rfl
    · exact ht

/-- A two-wire command that finds a pin an output leaves it one: what it releases it drives again. -/
theorem lastDir_commandEvents_output (htw : isTwoWire i = true) :
    lastDir q (.is .output) (commandEvents c i bs) = .is .output := by
  cases i with
  | twInit outer =>
    rw [commandEvents]
    split
    · rfl
    · exact lastDir_initEvents.trans (ite_self _)
  | twStart ch abyte => exact lastDir_channelEvents (fun _ => lastDir_startEvents.trans (ite_self _)) rfl
  | twRestart ch abyte => exact lastDir_channelEvents (fun _ => lastDir_restartEvents.trans (ite_self _)) rfl
  | twStop ch => exact lastDir_channelEvents (fun _ => lastDir_stopEvents) rfl
  | twWrite ch v => exact lastDir_channelEvents (fun _ => lastDir_writeEvents.trans (ite_self _)) rfl
  | twRead ch last => exact lastDir_channelEvents (fun _ => lastDir_readEvents.trans (ite_self _)) rfl
  | twWritebyte ch addr7 v =>
    exact lastDir_channelEvents
      (fun _ => (lastDir_transaction (fun _ => lastDir_writeEvents) _).trans (ite_self _)) rfl
  | twReadbyte ch addr7 =>
    exact lastDir_channelEvents
      (fun _ => (lastDir_transaction (fun _ => lastDir_readEvents) _).trans (ite_self _)) rfl
  | scBegin | scSend _ | scReceive | scTransfer _ => cases htw

theorem twDriven_of_performs (hadm : admitted s.cfg = true) (h : Performs s (commandEvents s.cfg i bs) t)
    (hs : TwDriven s) : TwDriven t := by
  rw [twDriven_iff] at hs ⊢
  rw [h.cfg]
  intro q hq
  cases htw : isTwoWire i with
  | true => rw [h.dirOf, hs q hq, lastDir_commandEvents_output htw]
  | false => rw [(serialClock_keeps_twPin hadm htw h hq).1, hs q hq]

/-! ## Latches: the commands that end a transaction (40 R68, R71, R72) -/

/-- A command that ends a transaction on channel `ch`: TW.STOP, or a whole transaction. -/
def EndsTransaction (ch : Nat) (i : Instr) : Prop :=
  i = .twStop ch ∨ (∃ addr7 v, i = .twWritebyte ch addr7 v) ∨ ∃ addr7, i = .twReadbyte ch addr7

theorem EndsTransaction.channel? (h : EndsTransaction ch i) : i.channel? = some ch := by
  obtain rfl | ⟨addr7, v, rfl⟩ | ⟨addr7, rfl⟩ := h <;> rfl

/-- Whatever the latches were, the stop leaves them all high. -/
theorem lastLvl_endsTransaction (hch : ch < s.cfg.twN) (hi : EndsTransaction ch i)
    (hq : q ∈ s.cfg.twSda ++ [s.cfg.twScl]) : lastLvl s.cfg.twSda q y (commandEvents s.cfg i bs) = .is true := by
  obtain ⟨p, hp⟩ := channelPin_some hch
  have hmem := channelPin_mem hp
  have hhigh : q ∈ s.cfg.twSda ∨ q = s.cfg.twScl := by simpa using hq
  obtain rfl | ⟨addr7, v, rfl⟩ | ⟨addr7, rfl⟩ := hi
  · rw [commandEvents, channelEvents_addressed hp, lastLvl_stopEvents hmem, if_pos hhigh]
  · rw [commandEvents, channelEvents_addressed hp,
      lastLvl_transaction (writeEvents_within (by simp) (by simp) v) hmem, if_pos hhigh]
  · rw [commandEvents, channelEvents_addressed hp,
      lastLvl_transaction (readEvents_within (by simp) (by simp) _) hmem, if_pos hhigh]

theorem lastLvl_twInit_high (outer : Bit) :
    lastLvl c.twSda q (.is true) (commandEvents c (.twInit outer) bs) = .is true := by
  rw [commandEvents]
  split
  · rfl
  · exact lastLvl_initEvents.trans (ite_self _)

/-! ## The phases -/

/-- What holds of the bus in each phase: outside a transaction it is idle, inside one its pins are driven. -/
def PhaseHolds : Phase → State → Prop
  | .idle, s => BusIdle s
  | .active _, s => TwDriven s

theorem PhaseHolds.twDriven (h : PhaseHolds ph s) : TwDriven s := by
  cases ph with
  | idle => exact (busIdle_iff.1 h).1
  | active ch => exact h

/-- A command that the discipline takes to the idle phase ends a transaction, or is TW.INIT or a serial-clock command
outside one. -/
theorem disciplineStep_eq_idle (h : disciplineStep ph i = some .idle) :
    (∃ ch, EndsTransaction ch i) ∨ ph = .idle ∧ ((∃ outer, i = .twInit outer) ∨ isTwoWire i = false) := by
  cases i with
  | twStop ch => exact .inl ⟨ch, .inl rfl⟩
  | twWritebyte ch addr7 v => exact .inl ⟨ch, .inr (.inl ⟨addr7, v, rfl⟩)⟩
  | twReadbyte ch addr7 => exact .inl ⟨ch, .inr (.inr ⟨addr7, rfl⟩)⟩
  | twInit outer =>
    cases ph with
    | idle => exact .inr ⟨rfl, .inl ⟨outer, rfl⟩⟩
    | active ch => cases h
  | scBegin | scSend _ | scReceive | scTransfer _ =>
    cases ph with
    | idle => exact .inr ⟨rfl, .inr rfl⟩
    | active ch => cases h
  | twStart _ _ | twRestart _ _ | twWrite _ _ | twRead _ _ => cases ph <;> simp [disciplineStep] at h

/-- A command that the discipline takes to the idle phase leaves every two-wire latch high. -/
theorem latOf_high_of_disciplined (hadm : admitted s.cfg = true) (hph : PhaseHolds ph s)
    (hi : disciplineStep ph i = some .idle) (hch : ∀ ch, i.channel? = some ch → ch < s.cfg.twN)
    (h : Performs s (commandEvents s.cfg i bs) t) (hq : q ∈ s.cfg.twSda ++ [s.cfg.twScl]) :
    t.latOf q = .is true := by
  obtain ⟨ch, hend⟩ | ⟨rfl, hout⟩ := disciplineStep_eq_idle hi
  · rw [h.latOf, lastLvl_endsTransaction (hch ch hend.channel?) hend hq]
  · have high := (busIdle_iff.1 hph).2 q hq
    obtain ⟨outer, rfl⟩ | hsc := hout
    · rw [h.latOf, high, lastLvl_twInit_high]
    · rw [(serialClock_keeps_twPin hadm hsc h hq).2, high]

/-- A disciplined command completes, and what holds of its phase holds of the next. -/
theorem exec_keeps_phase (hadm : admitted s.cfg = true) (hph : PhaseHolds ph s)
    (hi : disciplineStep ph i = some ph') (hch : ∀ ch, i.channel? = some ch → ch < s.cfg.twN) :
    ∃ t, exec i s = .next t ∧ t.cfg = s.cfg ∧ PhaseHolds ph' t := by
  obtain ⟨bs, t, -, he, ht, -⟩ := exec_performs i s
  have driven : TwDriven t := twDriven_of_performs hadm ht hph.twDriven
  refine ⟨_, he, ht.cfg, ?_⟩
  cases ph' with
  | active ch => exact driven
  | idle =>
    exact (busIdle_iff (s := t)).2
      ⟨driven, fun q hq => latOf_high_of_disciplined hadm hph hi hch ht (ht.cfg ▸ hq)⟩

/-! ## Lists of commands -/

theorem execAll_cons_of_next (h : exec i s = .next t) : execAll (i :: is) s = execAll is t := by
  rw [execAll, h]

theorem disciplined_cons : disciplined ph (i :: is) = (disciplineStep ph i).bind (disciplined · is) := by
  rw [disciplined]
  cases disciplineStep ph i <;> rfl

theorem execAll_keeps_phase (hadm : admitted s.cfg = true) (hph : PhaseHolds ph s)
    (his : disciplined ph is = some ph') (hch : channelsInRange s.cfg is) :
    ∃ t, execAll is s = .next t ∧ t.cfg = s.cfg ∧ PhaseHolds ph' t := by
  induction is generalizing ph s with
  | nil =>
    obtain rfl : ph = ph' := Option.some.inj his
    exact ⟨s, rfl, rfl, hph⟩
  | cons i is ih =>
    rw [disciplined_cons] at his
    obtain ⟨ph₁, hi, his⟩ := Option.bind_eq_some_iff.1 his
    obtain ⟨hchi, hchis⟩ := List.forall_mem_cons.1 hch
    obtain ⟨t, he, hcfg, ht⟩ := exec_keeps_phase hadm hph hi hchi
    obtain ⟨u, hu, hcfgu, hphu⟩ := ih (by rwa [hcfg]) ht his (by rwa [hcfg])
    exact ⟨u, (execAll_cons_of_next he).trans hu, hcfgu.trans hcfg, hphu⟩

end Sys2Proof.Proofs

/-! PROOFS. The statements of spec/70_reset_and_hazards.md. -/

namespace Sys2Proof.Proofs

open Sys2Proof.Machine Sys2Proof.Safety Sys2Proof.Laws

/-- Settles O16: the pin files are empty, and a pin whose direction is UNK is not driven. -/
theorem resetLeaves : Obligations.ResetLeaves := by
  intro c prog answers s
  exact ⟨fun p => ⟨rfl, rfl, rfl, line_of_not_output nofun⟩, rfl, rfl, rfl, rfl, rfl, rfl⟩

/-- Settles O35: the delays of each command's events, part by part. -/
theorem waitCounts : Obligations.WaitCounts := by
  intro i s
  obtain ⟨bs, t, hl, he, hp, -⟩ := exec_performs i s
  refine ⟨_, _, he, hp.trace, ?_⟩
  cases i with
  | twInit outer => exact (apply_ite waitsIn ..).trans (congrArg _ waitsIn_initEvents)
  | twStart ch abyte => exact waitsIn_channelEvents_of_silent (fun _ _ => waitsIn_startEvents) rfl
  | twRestart ch abyte => exact waitsIn_channelEvents_of_silent (fun _ _ => waitsIn_restartEvents) rfl
  | twStop ch => exact waitsIn_channelEvents fun _ _ => waitsIn_stopEvents
  | twWrite ch v => exact waitsIn_channelEvents_of_silent (fun _ _ => waitsIn_writeEvents) rfl
  | twRead ch last =>
    refine waitsIn_channelEvents_of_silent (fun hch _ => ?_) rfl
    rw [waitsIn_readEvents, hl, sampleCount, if_pos hch]
  | twWritebyte ch addr7 v =>
    refine waitsIn_channelEvents fun _ _ => ?_
    rw [waitsIn_append, waitsIn_append, waitsIn_startEvents, waitsIn_writeEvents, waitsIn_stopEvents]
  | twReadbyte ch addr7 =>
    refine waitsIn_channelEvents fun hch _ => ?_
    rw [waitsIn_append, waitsIn_append, waitsIn_startEvents, waitsIn_readEvents, waitsIn_stopEvents,
      List.length_tail, hl, sampleCount, if_pos hch]
  | scBegin => rfl
  | scSend v => exact waitsIn_sendEvents
  | scReceive => exact waitsIn_receiveEvents
  | scTransfer v => exact waitsIn_transferEvents

/-- Settles O38: the start's broadcast sets every data latch low, and only the addressed pin is set again; the byte
operations name no other data pin. -/
theorem otherChannelsHeldLow : Obligations.OtherChannelsHeldLow := by
  intro s ch d abyte v last q hadm hch hne hq
  obtain ⟨p, hp⟩ := channelPin_some hch
  refine ⟨?start, fun i hi => ?byteOperation⟩
  case start =>
    obtain ⟨a, t, he, ht⟩ := twStart_completes hp abyte
    refine ⟨t, he, ?_⟩
    rw [ht.latOf, lastLvl_startEvents (channelPin_ne_twScl hadm hp), if_neg (channelPin_ne_of_ne hadm hp hq hne),
      if_pos (.inl (channelPin_mem hq))]
  case byteOperation =>
    exact byteOperation_keeps_other_channel hadm (hi.imp (⟨_, ·⟩) (.imp (⟨_, ·⟩) (⟨_, ·⟩))) hp hq hne

/-- Settles O39: the command before leaves its last bit on the data pin, and the restart begins by raising the clock. -/
theorem restartSeesTheLastBit : Obligations.RestartSeesTheLastBit := by
  intro s ch v abyte last p hadm hp i hi
  obtain ⟨t, het, hcfg, hlat⟩ := latOf_addressed_after_byte hadm hp hi
  obtain ⟨a, u, heu, hu⟩ := twRestart_completes (s := t) (by rw [hcfg]; exact hp) abyte
  refine ⟨t, u, _, het, heu, hu.appended, ?_⟩
  rw [hcfg, head?_dataAtRises_restartEvents, hlat]

/-- Settles O41, by induction on the list: inside a transaction the pins stay driven, and the command that ends it leaves
every latch high. -/
theorem disciplinedCommandsLeaveBusIdle : Obligations.DisciplinedCommandsLeaveBusIdle := by
  intro is s hadm hidle hch his
  obtain ⟨t, he, hcfg, ht⟩ := execAll_keeps_phase (ph := .idle) hadm hidle his hch
  exact ⟨t, he, ht, hcfg⟩

end Sys2Proof.Proofs

/-! SUPPORT. Which states have a step (spec/10_state.md R28, spec/00_scope.md R7): exactly the ready ones; what `fetch`
answers in the others. -/

namespace Sys2Proof.Proofs

open Sys2Proof.Machine Sys2Proof.Safety

variable {s : State} {r : Refusal} {f : Fault} {w : Word} {k : Nat}

theorem step_of_fetch_refused (h : fetch s = .refused r) : step s = .refused r := by
  rw [step, h]

theorem step_of_fetch_fault (h : fetch s = .fault f) : step s = .fault f := by
  rw [step, h]

theorem fetch_of_not_admitted (h : admitted s.cfg = false) : fetch s = .refused .configurationRefused := by
  rw [fetch, h]
  rfl

theorem fetch_of_faulted (hadm : admitted s.cfg = true) (h : s.flt = .illegalCommand w k) :
    fetch s = .fault (.illegalCommand w k) := by
  rw [fetch, if_pos hadm, h]

theorem fetch_of_final (hadm : admitted s.cfg = true) (h : Final s) : fetch s = .refused .programEnded := by
  obtain ⟨hflt, hcp⟩ := h
  rw [fetch, if_pos hadm, hflt, List.getElem?_eq_none hcp.ge]

theorem exists_step_iff_ready : (∃ t, step s = .next t) ↔ ∃ w, Ready s w := by
  constructor
  · rintro ⟨t, h⟩
    exact ready_of_step h
  · rintro ⟨w, hr⟩
    by_cases hd : ∃ i, decode w = .ok i
    · obtain ⟨i, hd⟩ := hd
      obtain ⟨t, ht, -⟩ := step_legal hr hd
      exact ⟨t, ht⟩
    · exact ⟨_, step_of_illegal hr (not_exists.1 hd)⟩

theorem exists_ready_iff (hadm : admitted s.cfg = true) (hcp : s.cp ≤ s.prog.length) :
    (∃ w, Ready s w) ↔ ¬ Final s ∧ ¬ Faulted s := by
  constructor
  · rintro ⟨w, -, hflt, hw⟩
    obtain ⟨hlt, -⟩ := List.getElem?_eq_some_iff.1 hw
    exact ⟨fun hfinal => hlt.ne hfinal.2, fun hfaulted => hfaulted hflt⟩
  · rintro ⟨hfinal, hfaulted⟩
    have hflt : s.flt = .none := not_not.1 hfaulted
    have hlt : s.cp < s.prog.length := hcp.lt_of_ne fun h => hfinal ⟨hflt, h⟩
    exact ⟨_, hadm, hflt, List.getElem?_eq_getElem hlt⟩

end Sys2Proof.Proofs

/-! SUPPORT. What a command keeps of the invariant: pin files over bound pins (spec/10_state.md R17), the directions and the
clock level that hold between commands (spec/40_twowire.md R62, R64; spec/41_serialclock.md R83), the recorded words. -/

namespace Sys2Proof.Proofs

open Sys2Proof.Machine Sys2Proof.Safety Sys2Proof.Laws

variable {s t : State} {w : Word} {i : Instr} {bs : List Bit} {es : List PinEvent} {e : PinEvent} {c : Config}
  {p q : PinId} {bc : Bit}

/-! ## Bound pins (00 R7) -/

section Bound
variable {α : Type} {f : PinFile α}

theorem bound_pinWrite (h : Bound c f) (hp : p ∈ c.pins) (v : α) : Bound c (pinWrite f p v) := by
  intro x hx
  obtain rfl | hx := mem_pinWrite hx
  · exact hp
  · exact h x hx

theorem bound_pinWriteAll {ps : List PinId} (h : Bound c f) (hps : ps ⊆ c.pins) (v : α) :
    Bound c (pinWriteAll f ps v) := by
  intro x hx
  obtain hx | hx := mem_pinWriteAll hx
  · exact hps hx
  · exact h x hx

end Bound

theorem twSda_subset_pins (c : Config) : c.twSda ⊆ c.pins := List.subset_append_left ..

theorem enginePins_subset_pins (c : Config) (i : Instr) : enginePins c i ⊆ c.pins := by
  cases hi : isTwoWire i <;> simp [enginePins, hi, Config.pins]

theorem AllWithin.mono {ps qs : List PinId} (h : AllWithin ps bc es) (hsub : ps ⊆ qs) : AllWithin qs bc es :=
  fun e he => ⟨fun q hq => hsub ((h e he).1 q hq), (h e he).2⟩

/-- The three pin files list bound pins only. -/
structure PinsBound (s : State) : Prop where
  dir : Bound s.cfg s.dir
  lat : Bound s.cfg s.lat
  pu : Bound s.cfg s.pu

theorem pinsBound_perform (h : PinsBound s) (he : Within s.cfg.pins bc e) : PinsBound (perform e s) := by
  obtain ⟨hdir, hlat, hpu⟩ := h
  cases e with
  | dir p d => exact ⟨bound_pinWrite hdir (within_dir.1 he) d, hlat, hpu⟩
  | lvl p b => exact ⟨hdir, bound_pinWrite hlat (within_lvl.1 he) b, hpu⟩
  | pull p b => exact ⟨hdir, hlat, bound_pinWrite hpu (within_pull.1 he) b⟩
  | bcast b => exact ⟨hdir, bound_pinWriteAll hlat (twSda_subset_pins s.cfg) b, hpu⟩
  | wait | smp _ _ => exact ⟨hdir, hlat, hpu⟩

theorem pinsBound_performAll (h : PinsBound s) (hes : AllWithin s.cfg.pins bc es) : PinsBound (performAll es s) := by
  induction es generalizing s with
  | nil => exact h
  | cons e es ih =>
    obtain ⟨he, hes⟩ := allWithin_cons.1 hes
    have hcfg : (perform e s).cfg = s.cfg := performAll_cfg [e] s
    exact ih (pinsBound_perform h he) (by rwa [hcfg])

/-- A command writes no pin that the configuration does not bind. -/
theorem pinsBound_of_performs (hs : PinsBound s) (h : Performs s (commandEvents s.cfg i bs) t) : PinsBound t := by
  obtain ⟨a, rfl⟩ := h
  obtain ⟨hdir, hlat, hpu⟩ :=
    pinsBound_performAll hs ((commandEvents_within s.cfg i bs).mono (enginePins_subset_pins s.cfg i))
  exact ⟨hdir, hlat, hpu⟩

/-! ## The two-wire pins are not left released (40 R62, R64) -/

/-- A two-wire command keeps a pin's direction or leaves it an output: events keep a direction or set it, and these leave an
output an output. -/
theorem lastDir_commandEvents_keeps_or_output (htw : isTwoWire i = true) (x : Held Dir) :
    lastDir q x (commandEvents c i bs) = x ∨ lastDir q x (commandEvents c i bs) = .is .output := by
  obtain hkeeps | ⟨d, hsets⟩ := keepsOrSets_lastDir q (commandEvents c i bs)
  · exact .inl (hkeeps x)
  · exact .inr ((hsets x).trans ((hsets (.is .output)).symm.trans (lastDir_commandEvents_output htw)))

theorem twPins_not_released_of_performs (hadm : admitted s.cfg = true) (h : Performs s (commandEvents s.cfg i bs) t)
    (hs : ∀ q ∈ s.cfg.twSda ++ [s.cfg.twScl], s.dirOf q ≠ .is .input) :
    ∀ q ∈ t.cfg.twSda ++ [t.cfg.twScl], t.dirOf q ≠ .is .input := by
  rw [h.cfg]
  intro q hq
  cases htw : isTwoWire i with
  | true =>
    rw [h.dirOf]
    obtain hd | hd := lastDir_commandEvents_keeps_or_output (q := q) (c := s.cfg) (bs := bs) htw (s.dirOf q)
    · rw [hd]; exact hs q hq
    · rw [hd]; nofun
  | false => rw [(serialClock_keeps_twPin hadm htw h hq).1]; exact hs q hq

/-! ## The serial-clock pins (20 R33, 41 R83) -/

/-- A two-wire command leaves every serial-clock pin as it is (10 R18). -/
theorem twoWire_keeps_scPin (hadm : admitted s.cfg = true) (htw : isTwoWire i = true)
    (h : Performs s (commandEvents s.cfg i bs) t) (hq : q ∈ [s.cfg.scClk, s.cfg.scIn, s.cfg.scOut]) :
    t.dirOf q = s.dirOf q ∧ t.latOf q = s.latOf q := by
  obtain ⟨hout, hsda⟩ := not_mem_enginePins (i := i) hadm (by rwa [htw, if_pos rfl])
  obtain ⟨hdir, hlat, -⟩ := performs_keeps_pin h (commandEvents_within s.cfg i bs) hout hsda
  exact ⟨hdir, hlat⟩

/-- SC.BEGIN makes `SC_IN` an input; the commands that clock a byte set no direction. -/
theorem lastDir_scIn_serialClock (hadm : admitted c = true) (hsc : isTwoWire i = false) (x : Held Dir) :
    lastDir c.scIn x (commandEvents c i bs) = if i = .scBegin then .is .input else x := by
  by_cases hb : i = .scBegin
  · subst hb
    exact (lastDir_beginEvents hadm x).trans (if_pos rfl)
  · rw [commandEvents_eq_bitsEvents (clocksByte_of_ne_scBegin hsc hb), lastDir_bitsEvents, if_neg hb]

/-- Every serial-clock command leaves the clock at its idle level (41 R83). -/
theorem lastLvl_scClk_serialClock {sda : List PinId} (hadm : admitted c = true) (hsc : isTwoWire i = false)
    (hl : bs.length = sampleCount c i) (y : Held Bit) :
    lastLvl sda c.scClk y (commandEvents c i bs) = .is c.scCpol := by
  by_cases hb : i = .scBegin
  · subst hb
    exact (lastLvl_beginEvents hadm y).trans (if_pos rfl)
  · have hbyte := clocksByte_of_ne_scBegin hsc hb
    have hxs : clockedBits i bs ≠ [] := List.ne_nil_of_length_pos (by rw [length_clockedBits hbyte hl]; decide)
    rw [commandEvents_eq_bitsEvents hbyte, lastLvl_bitsEvents hxs, if_pos rfl]

theorem scIn_not_driven_of_performs (hadm : admitted s.cfg = true) (h : Performs s (commandEvents s.cfg i bs) t)
    (hs : s.dirOf s.cfg.scIn ≠ .is .output) : t.dirOf t.cfg.scIn ≠ .is .output := by
  rw [h.cfg]
  cases htw : isTwoWire i with
  | true => rwa [(twoWire_keeps_scPin hadm htw h (by simp)).1]
  | false =>
    rw [h.dirOf, lastDir_scIn_serialClock hadm htw]
    split
    · nofun
    · exact hs

theorem scClk_idle_of_performs (hadm : admitted s.cfg = true) (hl : bs.length = sampleCount s.cfg i)
    (h : Performs s (commandEvents s.cfg i bs) t) (hs : s.latOf s.cfg.scClk ≠ .is (!s.cfg.scCpol)) :
    t.latOf t.cfg.scClk ≠ .is (!t.cfg.scCpol) := by
  rw [h.cfg]
  cases htw : isTwoWire i with
  | true => rwa [(twoWire_keeps_scPin hadm htw h (by simp)).2]
  | false =>
    rw [h.latOf, lastLvl_scClk_serialClock hadm htw hl]
    simp

/-! ## The recorded words (20 R38) -/

@[simp] theorem commandsIn_append (t u : List Event) : commandsIn (t ++ u) = commandsIn t ++ commandsIn u := by
  induction t with
  | nil => rfl
  | cons e t ih => cases e <;> simp [commandsIn, ih]

@[simp] theorem commandsIn_map_pin (es : List PinEvent) : commandsIn (es.map .pin) = [] := by
  induction es with
  | nil => rfl
  | cons e es ih => exact ih

/-- Without a fault the words recorded are those before `cp`. -/
theorem traceFits_of_flt_none (h : s.flt = .none) : TraceFits s ↔ commandsIn s.trace = s.prog.take s.cp := by
  rw [TraceFits, h]

theorem StepsLegally.traceFits (h : StepsLegally s w i t) (hr : Ready s w) (hs : TraceFits s) : TraceFits t := by
  obtain ⟨-, hflt, hw⟩ := hr
  obtain ⟨es, htrace⟩ := h.trace
  rw [traceFits_of_flt_none hflt] at hs
  rw [traceFits_of_flt_none (h.flt.trans hflt), htrace, h.prog, h.cp, List.take_add_one, hw, commandsIn_append, hs]
  simp [commandsIn]

theorem traceFits_raise (hflt : s.flt = .none) (hs : TraceFits s) :
    TraceFits (raiseIllegalCommand w s.cp (startCommand w s)) := by
  rw [traceFits_of_flt_none hflt] at hs
  exact (commandsIn_append ..).trans (congrArg (· ++ [w]) hs)

/-! ## The two kinds of step -/

theorem StepsLegally.inv (h : StepsLegally s w i t) (hr : Ready s w) (hs : Inv s) : Inv t := by
  have hcommands := h.traceFits hr hs.commands
  have hflt := h.flt
  obtain ⟨bs, u, hl, hu, rfl⟩ := h
  obtain ⟨hadm, hnone, hw⟩ := hr
  obtain ⟨hlt, -⟩ := List.getElem?_eq_some_iff.1 hw
  have hbound : PinsBound u := pinsBound_of_performs (s := startCommand w s) ⟨hs.dirBound, hs.latBound, hs.puBound⟩ hu
  exact
    { config := (congrArg admitted hu.cfg).trans hadm
      dirWf := hu.dirWf hs.dirWf
      latWf := hu.latWf hs.latWf
      puWf := hu.puWf hs.puWf
      dirBound := hbound.dir
      latBound := hbound.lat
      puBound := hbound.pu
      cpInRange := by simpa [hu.cp, hu.prog] using hlt
      fault := by rw [FaultFits, hflt, hnone]; trivial
      commands := hcommands
      twDir := twPins_not_released_of_performs (s := startCommand w s) (t := u) hadm hu hs.twDir
      scInDir := scIn_not_driven_of_performs (s := startCommand w s) (t := u) hadm hu hs.scInDir
      scClkIdle := scClk_idle_of_performs (s := startCommand w s) (t := u) hadm hl hu hs.scClkIdle }

/-- The raise writes `FLT` and no pin, and what it writes names the word at `cp`. -/
theorem inv_raise (hr : Ready s w) (hd : ∀ i, decode w ≠ .ok i) (hs : Inv s) :
    Inv (raiseIllegalCommand w s.cp (startCommand w s)) := by
  obtain ⟨-, hflt, hw⟩ := hr
  exact { hs with fault := ⟨rfl, hw, hd⟩, commands := traceFits_raise hflt hs.commands }

/-! ## Reset (70 R104) -/

theorem inv_resetWith (h : admitted c = true) (prog : List Word) (answers : List Bit) :
    Inv (State.resetWith c prog answers) where
  config := h
  dirWf := List.Pairwise.nil
  latWf := List.Pairwise.nil
  puWf := List.Pairwise.nil
  dirBound := nofun
  latBound := nofun
  puBound := nofun
  cpInRange := Nat.zero_le _
  fault := trivial
  commands := rfl
  twDir _ _ := nofun
  scInDir := nofun
  scClkIdle := nofun

theorem pinsFollowTrace_resetWith (c : Config) (prog : List Word) (answers : List Bit) :
    PinsFollowTrace (State.resetWith c prog answers) := fun _ => ⟨rfl, rfl, rfl⟩

end Sys2Proof.Proofs

/-! SUPPORT. How many events each list holds (spec/40_twowire.md R76, spec/41_serialclock.md R78 to R82). -/

namespace Sys2Proof.Proofs

open Sys2Proof.Machine Sys2Proof.Safety Sys2Proof.Laws

variable {p scl : PinId} {v : Byte} {a last outer : Bit} {bs : List Bit} {c : Config} {tx rx : List PinEvent} {n : Nat}

theorem length_flatMap_of_forall {α : Type} {f : α → List PinEvent} (h : ∀ a, (f a).length = n) (l : List α) :
    (l.flatMap f).length = l.length * n := by
  rw [List.length_flatMap, List.map_congr_left fun a _ => h a, List.map_const', List.sum_replicate, smul_eq_mul]

/-! ## The two-wire engine (40 R62 to R68) -/

/-- Five events for each bit, six for the acknowledgment. -/
theorem length_writeEvents : (writeEvents p scl v a).length = 46 := rfl

/-- Five events for each sample, seven around them. -/
theorem length_readEvents : (readEvents p scl bs last).length = bs.length * 5 + 7 := by
  have samples : (bs.flatMap (readBitEvents p scl)).length = bs.length * 5 :=
    length_flatMap_of_forall (n := 5) (fun _ => rfl) bs
  rw [readEvents, List.length_append, List.length_append, samples]
  simp only [List.length_cons, List.length_nil]
  omega

theorem length_startEvents : (startEvents p scl v a).length = 48 := rfl

theorem length_restartEvents : (restartEvents p scl v a).length = 49 := rfl

theorem length_stopEvents : (stopEvents p scl).length = 7 := rfl

theorem length_initEvents : (initEvents c outer).length = c.twN + 1 + if outer then 3 else 0 := by
  cases outer <;> simp [initEvents, Config.twN]

/-! ## The serial-clock engine (41 R84) -/

/-- Two clock edges, and the output's event and the sample's. -/
theorem length_scBitEvents : (scBitEvents c tx rx).length = tx.length + rx.length + 2 := by
  unfold scBitEvents
  split <;> simp only [List.length_append, List.length_cons, List.length_nil] <;> omega

theorem length_sendEvents : (sendEvents c v).length = 24 :=
  length_flatMap_of_forall (n := 3) (fun _ => length_scBitEvents) _

theorem length_receiveEvents : (receiveEvents c bs).length = bs.length * 3 :=
  length_flatMap_of_forall (n := 3) (fun _ => length_scBitEvents) _

theorem length_transferEvents (h : bs.length = 8) : (transferEvents c v bs).length = 32 := by
  rw [transferEvents, length_flatMap_of_forall (n := 4) (fun _ => length_scBitEvents), List.length_zip, h]
  rfl

/-- On a channel below `TW_N` the events are those of the addressed part. -/
theorem length_channelEvents {ch : Nat} {addressed : PinId → List PinEvent} {terminal : List PinEvent}
    (hch : ch < c.twN) (ha : ∀ p, (addressed p).length = n) : (channelEvents c ch addressed terminal).length = n := by
  obtain ⟨p, hp⟩ := channelPin_some hch
  rw [channelEvents, hp]
  exact ha p

end Sys2Proof.Proofs

/-! PROOFS. The statements on the machine as a whole: its invariant, the states without a step, the event table. -/

namespace Sys2Proof.Proofs

open Sys2Proof.Machine Sys2Proof.Safety Sys2Proof.Laws

/-- Settles O18, by the inversion of a step: a legal command keeps every clause by its events, and the raise writes `FLT`
only. -/
theorem stepKeepsInvariant : Obligations.StepKeepsInvariant := by
  intro s t hs h
  obtain ⟨w, hr, ⟨i, -, hl⟩ | ⟨hd, rfl⟩⟩ := step_cases h
  · exact hl.inv hr hs
  · exact inv_raise hr hd hs

/-- Settles O17: the pin files and the trace are empty. -/
theorem invariantHoldsAtReset : Obligations.InvariantHoldsAtReset :=
  ⟨fun c prog answers h => ⟨inv_resetWith h prog answers, pinsFollowTrace_resetWith c prog answers⟩,
    inv_resetWith (by decide) [] [], pinsFollowTrace_resetWith _ [] []⟩

/-- Settles O13: a final or faulted state stops at the fetch, and every other one is ready. -/
theorem onlyFinalAndFaultedStatesLackAStep : Obligations.OnlyFinalAndFaultedStatesLackAStep := by
  intro s hadm hcp
  exact ⟨fun hfinal => step_of_fetch_refused (fetch_of_final hadm hfinal),
    fun w k hflt => step_of_fetch_fault (fetch_of_faulted hadm hflt),
    exists_step_iff_ready.trans (exists_ready_iff hadm hcp)⟩

/-- Settles O14: such a configuration is not admitted. -/
theorem repeatedPinIsRefused : Obligations.RepeatedPinIsRefused := by
  intro s hrepeated
  have hadm : admitted s.cfg = false := Bool.eq_false_iff.2 fun h => hrepeated (admitted_iff.1 h).1
  exact step_of_fetch_refused (fetch_of_not_admitted hadm)

/-- Settles O53: a command performs its row's events, and they decide every pin; the end of the command writes the
result. -/
theorem commandsRefineTheirEventTable : Obligations.CommandsRefineTheirEventTable := by
  intro i s
  obtain ⟨bs, t, hl, he, hp, -⟩ := exec_performs i s
  exact ⟨bs, _, hl, he, hp.trace, rfl, fun q => ⟨hp.dirOf q, hp.latOf q, hp.puOf q⟩, hp.cfg, hp.prog, hp.flt, hp.cp⟩

/-- Settles O36: the length of each command's event list, part by part. -/
theorem eventCounts : Obligations.EventCounts := by
  intro i s hch
  obtain ⟨bs, t, hl, he, hp, -⟩ := exec_performs i s
  refine ⟨_, _, he, hp.trace, ?_⟩
  cases i with
  | twInit outer => exact (apply_ite List.length ..).trans (congrArg _ length_initEvents)
  | twStart ch abyte => exact length_channelEvents (hch ch rfl) fun _ => length_startEvents
  | twRestart ch abyte => exact length_channelEvents (hch ch rfl) fun _ => length_restartEvents
  | twStop ch => exact length_channelEvents (hch ch rfl) fun _ => length_stopEvents
  | twWrite ch v => exact length_channelEvents (hch ch rfl) fun _ => length_writeEvents
  | twRead ch last =>
    refine length_channelEvents (hch ch rfl) fun _ => ?_
    rw [length_readEvents, hl, sampleCount, if_pos (hch ch rfl)]
  | twWritebyte ch addr7 v =>
    refine length_channelEvents (hch ch rfl) fun _ => ?_
    rw [List.length_append, List.length_append, length_startEvents, length_writeEvents, length_stopEvents]
  | twReadbyte ch addr7 =>
    refine length_channelEvents (hch ch rfl) fun _ => ?_
    rw [List.length_append, List.length_append, length_startEvents, length_readEvents, length_stopEvents,
      List.length_tail, hl, sampleCount, if_pos (hch ch rfl)]
  | scBegin => rfl
  | scSend v => exact length_sendEvents
  | scReceive => exact length_receiveEvents.trans (congrArg (· * 3) hl)
  | scTransfer v => exact length_transferEvents hl

end Sys2Proof.Proofs
